-- ==== Sys2Proof/Word.lean ====
section
/-! DEFINITION. Words of the sketch engine: the widths of `00_scope.md` rule R7 and the word types of
`30_encoding.md` rules R61 and R62. Bit 0 is the least significant bit of every word (rule R9). -/

namespace Sys2Proof

/-- A 72-bit word of the command port (R61) or of the response port (R62). -/
abbrev PortWord := BitVec 72

/-- A 64-bit value: a hash, an operand, the `data` field of a response (R61, R62). -/
abbrev Word64 := BitVec 64

/-- A register index, `P = 14` bits (R7, R80): every value is an index of the array. -/
abbrev Index := BitVec 14

/-- The value of one register, `RW = 8` bits (R7, R21). -/
abbrev RegValue := BitVec 8

/-- The splitter's rank output, `RANKW = 6` bits (R7, R85). -/
abbrev Rank := BitVec 6

/-- The bit pattern of an IEEE 754 binary64 value (R11). -/
abbrev F64 := BitVec 64

end Sys2Proof
end

