-- ==== Sys2Proof/Syntax.lean ====
section
/-! DEFINITION. The commands as syntax: one constructor of `Instr` per row of the opcode table (`30_encoding.md` rule
R64), the reasons a word spells no command (rules R66, R67), and the assembler's lines (rule R70). -/

namespace Sys2Proof

/-- A command (the checklist's "instruction", R2), with its operand fields as R65 takes them from the word. -/
inductive Instr
  /-- NOP, opcode 0x00, format Z (R130). -/
  | nop
  /-- CLEAR, opcode 0x01, format Z (R131). -/
  | clear
  /-- SPLIT, opcode 0x02, format H (R84). -/
  | split (hash : Word64)
  /-- UPDATE, opcode 0x03, format U (R88). -/
  | update (index : Index) (value : RegValue)
  /-- ADDHASH, opcode 0x04, format H (R92). -/
  | addhash (hash : Word64)
  /-- ESTIMATE, opcode 0x05, format Z (R118). -/
  | estimate
  /-- RDREG, opcode 0x06, format I (R132). -/
  | rdreg (index : Index)
  /-- RDALPHA, opcode 0x07, format Z (R133). -/
  | rdalpha
  deriving DecidableEq, Repr

/-- Why a command word is illegal. The block answers both alike (R150); the names are the decoder's. -/
inductive Illegal
  /-- An opcode 0x08 to 0xFF (R67). -/
  | reservedOpcode
  /-- A defined opcode with a 1 in a bit its format marks 0 (R66). -/
  | mustBeZero
  deriving DecidableEq, Repr

/-- One line of the assembler syntax of R70: a mnemonic and its operands as the numbers the programmer wrote, of any
size. `Line.wellFormed` says which lines can be assembled. -/
inductive Line
  | nop
  | clear
  | split (hash : Nat)
  | update (index value : Nat)
  | addhash (hash : Nat)
  | estimate
  | rdreg (index : Nat)
  | rdalpha
  deriving DecidableEq, Repr

/-- The line that spells a command (R70). -/
def Instr.line : Instr → Line
  | .nop => .nop
  | .clear => .clear
  | .split hash => .split hash.toNat
  | .update index value => .update index.toNat value.toNat
  | .addhash hash => .addhash hash.toNat
  | .estimate => .estimate
  | .rdreg index => .rdreg index.toNat
  | .rdalpha => .rdalpha

end Sys2Proof
end

