-- ==== Sys2Proof/Config.lean ====
section
/-! DEFINITION. The configuration of `00_scope.md` rule R7, and the free values: what the spec leaves open and the
model therefore does not fix. A free value is an opaque constant without a body, so no proof can see what it is. -/

namespace Sys2Proof.Config

/-- `P`, the number of hash bits that select a register (R7). -/
abbrev precision : Nat := 14

/-- `M = 2^P`, the number of registers (R7). -/
abbrev numRegs : Nat := 16384

/-- `HW`, the hash width (R7). -/
abbrev hashWidth : Nat := 64

/-- `SW = HW - P`, the suffix width (R7). -/
abbrev suffixWidth : Nat := 50

/-- `RANK_MAX = HW - P + 1`, the largest rank the splitter produces (R7, R85). -/
abbrev rankMax : Nat := 51

/-- The four binary64 operations of R11, to name which of them a free NaN pattern belongs to. -/
inductive FloatOp
  | add | sub | mul | div
  deriving DecidableEq, Repr

/-- FREE VALUE (log entry 5). Which of the two binary64 neighbours of `ln n` the logarithm `LN64` returns at the
argument with this bit pattern: `41_estimator.md` rule R107 property P2 allows either one and fixes neither. -/
opaque lnRoundsUp : F64 → Bool

/-- FREE VALUE (log entry 6). `LN64` at an argument other than the 16385 values of R105, where R107 states no
property; the estimator never asks it there. -/
opaque ln64Elsewhere : F64 → F64

/-- FREE VALUE (log entry 7). Sign and payload of the quiet NaN an operation returns on these operands: R11 and R120
leave NaN to IEEE 754, which does not fix them. No response shows them. -/
opaque nanBits : FloatOp → F64 → F64 → BitVec 52

end Sys2Proof.Config
end

