-- ==== Sys2Proof/WellFormed.lean ====
section
/-! DEFINITION. Well-formedness. An operand outside its stated range cannot be assembled (`30_encoding.md` rule R70),
and `Line.wellFormed` is that check. A command of type `Instr` carries its operands at their own widths, so it is
well-formed by construction. -/

namespace Sys2Proof

/-- Every operand of the line is in the range R70 states: a hash below `2^64`, an index 0 to 16383, a value 0 to 255. -/
def Line.wellFormed : Line → Bool
  | .split hash => decide (hash < 2 ^ 64)
  | .addhash hash => decide (hash < 2 ^ 64)
  | .update index value => decide (index < Config.numRegs) && decide (value < 256)
  | .rdreg index => decide (index < Config.numRegs)
  | .nop => true
  | .clear => true
  | .estimate => true
  | .rdalpha => true

/-- A command is well-formed when the line that spells it can be assembled. -/
def Instr.wellFormed (i : Instr) : Bool := i.line.wellFormed

end Sys2Proof
end

