-- ==== Sys2Proof/Decode.lean ====
section
/-! DEFINITION. The decoder of `30_encoding.md` rule R72, total on all 72-bit words and rejecting by name, the encoder
that is its inverse on legal commands, the opcode table of rule R64 as data, and the assembler of rule R70. -/

namespace Sys2Proof

/-- `opcode = cmd[71:64]` (R61). -/
def opcodeOf (w : PortWord) : BitVec 8 := w.extractLsb' 64 8

/-- `operand = cmd[63:0]` (R61). -/
def operandOf (w : PortWord) : Word64 := w.extractLsb' 0 64

/-- `index = operand[13:0]` (R63, formats I and U). -/
def indexField (x : Word64) : Index := x.extractLsb' 0 14

/-- `value = operand[23:16]` (R63, format U). -/
def valueField (x : Word64) : RegValue := x.extractLsb' 16 8

/-- Format Z: `operand[63:0] = 0` (R63). -/
def formatZ (x : Word64) (i : Instr) : Except Illegal Instr :=
  if x = 0 then .ok i else .error .mustBeZero

/-- Format I: `operand[63:14] = 0` (R63). -/
def formatI (x : Word64) (f : Index → Instr) : Except Illegal Instr :=
  if x.extractLsb' 14 50 = 0 then .ok (f (indexField x)) else .error .mustBeZero

/-- Format U: `operand[63:24] = 0` and `operand[15:14] = 0` (R63). -/
def formatU (x : Word64) (f : Index → RegValue → Instr) : Except Illegal Instr :=
  if x.extractLsb' 24 40 = 0 ∧ x.extractLsb' 14 2 = 0 then .ok (f (indexField x) (valueField x))
  else .error .mustBeZero

/-- The decoder (R72). Format H takes the operand as it stands: every 64-bit value is a hash (R66). -/
def decode (w : PortWord) : Except Illegal Instr :=
  match (opcodeOf w).toNat with
  | 0x00 => formatZ (operandOf w) .nop
  | 0x01 => formatZ (operandOf w) .clear
  | 0x02 => .ok (.split (operandOf w))
  | 0x03 => formatU (operandOf w) .update
  | 0x04 => .ok (.addhash (operandOf w))
  | 0x05 => formatZ (operandOf w) .estimate
  | 0x06 => formatI (operandOf w) .rdreg
  | 0x07 => formatZ (operandOf w) .rdalpha
  | _ => .error .reservedOpcode

/-- The opcode of a command (R64). -/
def Instr.opcode : Instr → BitVec 8
  | .nop => 0x00
  | .clear => 0x01
  | .split _ => 0x02
  | .update _ _ => 0x03
  | .addhash _ => 0x04
  | .estimate => 0x05
  | .rdreg _ => 0x06
  | .rdalpha => 0x07

/-- The operand of a command by its format (R63): the fields at their places, zeros elsewhere. -/
def Instr.operand : Instr → Word64
  | .nop => 0
  | .clear => 0
  | .split hash => hash
  | .update index value => 0#40 ++ value ++ 0#2 ++ index
  | .addhash hash => hash
  | .estimate => 0
  | .rdreg index => 0#50 ++ index
  | .rdalpha => 0

/-- The one word of a legal command (R72), `opcode ++ operand` (R61). -/
def encode (i : Instr) : PortWord := i.opcode ++ i.operand

/-- One row of the opcode table: a word `w` spells the row when `w AND mask = match` (R64). -/
structure OpcodeRow where
  mnemonic : String
  pattern : PortWord
  mask : PortWord
  deriving DecidableEq, Repr

/-- The word spells the row (R64). -/
def OpcodeRow.spelledBy (r : OpcodeRow) (w : PortWord) : Bool := (w &&& r.mask) == r.pattern

/-- `opcode_table.json`, row for row (R64). -/
def opcodeTable : List OpcodeRow :=
  [ ⟨"NOP", 0x000000000000000000, 0xFFFFFFFFFFFFFFFFFF⟩,
    ⟨"CLEAR", 0x010000000000000000, 0xFFFFFFFFFFFFFFFFFF⟩,
    ⟨"SPLIT", 0x020000000000000000, 0xFF0000000000000000⟩,
    ⟨"UPDATE", 0x030000000000000000, 0xFFFFFFFFFFFF00C000⟩,
    ⟨"ADDHASH", 0x040000000000000000, 0xFF0000000000000000⟩,
    ⟨"ESTIMATE", 0x050000000000000000, 0xFFFFFFFFFFFFFFFFFF⟩,
    ⟨"RDREG", 0x060000000000000000, 0xFFFFFFFFFFFFFFC000⟩,
    ⟨"RDALPHA", 0x070000000000000000, 0xFFFFFFFFFFFFFFFFFF⟩ ]

/-- The command's mnemonic (R64, R70). -/
def Instr.mnemonic : Instr → String
  | .nop => "NOP"
  | .clear => "CLEAR"
  | .split _ => "SPLIT"
  | .update _ _ => "UPDATE"
  | .addhash _ => "ADDHASH"
  | .estimate => "ESTIMATE"
  | .rdreg _ => "RDREG"
  | .rdalpha => "RDALPHA"

/-- The assembler (R70): "An operand outside the stated range cannot be assembled." -/
def Line.assemble (l : Line) : Option Instr :=
  if l.wellFormed then
    match l with
    | .nop => some .nop
    | .clear => some .clear
    | .split hash => some (.split (BitVec.ofNat 64 hash))
    | .update index value => some (.update (BitVec.ofNat 14 index) (BitVec.ofNat 8 value))
    | .addhash hash => some (.addhash (BitVec.ofNat 64 hash))
    | .estimate => some .estimate
    | .rdreg index => some (.rdreg (BitVec.ofNat 14 index))
    | .rdalpha => some .rdalpha
  else none

/-- The command word the opcode table's numbering gives: `nbits` bits of `w`, bit 0 the least significant, every higher
bit 0. The block has one word length, 72 bits, and no byte order (R41, R69). -/
def tableWord (nbits w : Nat) : PortWord := BitVec.ofNat 72 (w % 2 ^ nbits)

/-- The instruction the decoder reads from an instruction whose bits are `w`, numbered as the opcode table numbers
them; `none` where the decoder rejects the word. -/
def decodeTableWord (nbits w : Nat) : Option Instr :=
  match decode (tableWord nbits w) with
  | .ok i => some i
  | .error _ => none

end Sys2Proof
end

