-- ==== Sys2Proof/Machine/State.lean ====
section
/-! DEFINITION. State as plain data: the register array, which is the whole architectural state (`10_state.md` rule
R20), and the two ports of `30_encoding.md` rule R60 as the queues a transaction-level model needs (log entry 1). -/

namespace Sys2Proof.Machine

/-- The three status codes of R74; no other is ever produced. -/
inductive Status
  /-- 0x00: the command was done. -/
  | ok
  /-- 0x01: ESTIMATE was done and the quotient does not fit 64 bits (R115). -/
  | estOor
  /-- 0x80: the word spells no command and nothing was done (R150). -/
  | illegalCmd
  deriving DecidableEq, Repr

/-- A response (R62): a status and 64 bits of data. -/
structure Response where
  status : Status
  data : Word64
  deriving DecidableEq, Repr

/-- What the host does at the ports, in the order it does it (R60, R160). -/
inductive PortEvent
  /-- A command word is accepted. -/
  | command (w : PortWord)
  /-- The host is ready for a response; the oldest one, if there is one, is delivered. -/
  | take
  /-- `rst = 1` at a rising edge (R170). -/
  | reset
  deriving DecidableEq, Repr

/-- The register array (R20, R40) as a list of (index, value) pairs in one canonical form, `Memory.wf`: indices strictly
rising and below 16384, and no pair whose value is what an unlisted index reads as. -/
abbrev Memory := List Host.Cell

/-- The machine's state. -/
structure State where
  /-- `reg[0..16383]` (R20, R21): the architectural state. -/
  regs : Memory
  /-- What the host presents at the ports and the block has not yet met, oldest first (R47, R60). -/
  inbox : List PortEvent
  /-- Responses produced and not yet delivered, oldest first (R62, R172). -/
  pending : List Response
  /-- The response words delivered so far, oldest first (R60, R62): the host's record of the response port. -/
  delivered : List PortWord
  deriving DecidableEq, Repr

/-- Why the machine stops with a fault: never. The block has no trap, no access fault, no alignment fault and no
arithmetic trap (R45, R42, R151, R154), so no constructor exists; nobody raises a fault, which is safe and exact. -/
inductive Fault
  deriving DecidableEq, Repr

/-- Why the machine refuses an instruction. -/
inductive Refusal
  /-- An instruction without a meaning. Raised by `exec`'s rejected arms alone, of which there is none: every command
  has its meaning. Safe. -/
  | notModelled (mnemonic : String)
  deriving DecidableEq, Repr

/-- The machine right after reset (R33, R171): every register 0. Nothing is listed, because an unlisted register reads
as 0, its reset contents. The port queues are empty (DESIGN CHOICE, log entry 1). -/
def State.reset : State where
  regs := []
  inbox := []
  pending := []
  delivered := []

end Sys2Proof.Machine
end

