-- ==== Sys2Proof/Machine/Flags.lean ====
section
/-! DEFINITION. The block keeps no flag, condition code or sticky bit (`10_state.md` rule R28). The only status there is
stands in a response; this file gives its codes (`30_encoding.md` rule R74) and the response word (rule R62). -/

namespace Sys2Proof.Machine

/-- The status code as the response word carries it (R74). -/
def Status.code : Status → BitVec 8
  | .ok => 0x00
  | .estOor => 0x01
  | .illegalCmd => 0x80

/-- The 72-bit response word `status ++ data` (R62). -/
def Response.word (r : Response) : PortWord := r.status.code ++ r.data

end Sys2Proof.Machine
end

