-- ==== Sys2Proof/Machine/Ops.lean ====
section
/-! DEFINITION. The operations every command is built from: reading and writing one register (`20_memory.md` rule R40),
the update primitive (`40_split_update.md` rule R87), answering a command (`30_encoding.md` rule R62), the one error
outcome ILLEGAL_CMD (`60_exceptions.md` rule R150), delivering a response and taking reset. -/

namespace Sys2Proof.Machine

/-- What an unlisted register reads as: its reset contents, 0 (R33). -/
abbrev Memory.unlisted : RegValue := 0

/-- `reg[a]` (R40). -/
def Memory.read : Memory → Nat → RegValue
  | [], _ => Memory.unlisted
  | (b, u) :: rest, a => if a = b then u else Memory.read rest a

/-- `reg[a] <- v` (R40), keeping the canonical form. -/
def Memory.write : Memory → Nat → RegValue → Memory
  | [], a, v => if v = Memory.unlisted then [] else [(a, v)]
  | (b, u) :: rest, a, v =>
    if a < b then
      if v = Memory.unlisted then (b, u) :: rest else (a, v) :: (b, u) :: rest
    else if a = b then
      if v = Memory.unlisted then rest else (a, v) :: rest
    else (b, u) :: Memory.write rest a v

/-- The cells from index `lo` up are in canonical form. -/
def Memory.wfFrom : Nat → Memory → Bool
  | _, [] => true
  | lo, (a, v) :: rest =>
    decide (lo ≤ a) && decide (a < Config.numRegs) && decide (v ≠ Memory.unlisted) && Memory.wfFrom (a + 1) rest

/-- The canonical form: indices strictly rising, all of them registers of the array, no value that an unlisted register
reads as. Equal arrays are then equal lists (R20). -/
def Memory.wf (m : Memory) : Bool := Memory.wfFrom 0 m

/-- The update primitive `reg[i] <- max(reg[i], v)`, an unsigned 8-bit comparison (R87). -/
def Memory.update (m : Memory) (i : Index) (v : RegValue) : Memory :=
  if m.read i.toNat < v then m.write i.toNat v else m

/-- `merge(A, B)`: every register of `B` raised into `A` (R134). -/
def Memory.merge (a b : Memory) : Memory :=
  b.foldl (fun m cell => m.update (BitVec.ofNat 14 cell.1) cell.2) a

/-- The empty sketch, every register 0: reset and CLEAR leave it (R131, R171). -/
def Memory.empty : Memory := []

/-- `reg[i]` of the state (R12, R40). -/
def State.reg (s : State) (i : Index) : RegValue := s.regs.read i.toNat

/-- The state with another register array. -/
def State.setRegs (s : State) (m : Memory) : State := { s with regs := m }

/-- The command ends by producing its one response, after those of all earlier commands (R62, R47). -/
def State.answer (s : State) (r : Response) : State := { s with pending := s.pending ++ [r] }

/-- `respond(status, data)` (R12). -/
def State.respond (s : State) (status : Status) (data : Word64) : State := s.answer ⟨status, data⟩

/-- Taking the block's one exception (R150): an illegal word is answered `respond(ILLEGAL_CMD, 0)`. Nothing is saved and
no register changes; there is no trap, no vector, no mode and so no return (R154, R155). -/
def State.illegalCommand (s : State) : State := s.respond .illegalCmd 0

/-- The host takes a response: the oldest one not yet delivered crosses the response port as a word (R60, R62). With no
response to deliver (`rsp_valid = 0`) nothing happens (DEDUCED, log entry 12). -/
def State.deliver (s : State) : State :=
  match s.pending with
  | [] => s
  | r :: rest => { s with pending := rest, delivered := s.delivered ++ [r.word] }

/-- Taking reset: every register 0, and a response not yet delivered is dropped (R170, R171, R172). What was delivered
stays delivered, and what the host presents later is met after the reset (DEDUCED, log entry 11). -/
def State.takeReset (s : State) : State := { s with regs := Memory.empty, pending := [] }

end Sys2Proof.Machine
end

