-- ==== Sys2Proof/Machine/Operands.lean ====
section
/-! DEFINITION. How an address is formed (`20_memory.md` rule R53) and how a result is laid out in a response's data
(`30_encoding.md` rule R65). The operand fields themselves are taken from the word in `Decode.lean` (rule R63). -/

namespace Sys2Proof.Machine

/-- Direct addressing: the `index` field as it stands (R53; RDREG, UPDATE). -/
def directAddress (index : Index) : Index := index

/-- Hashed addressing: `hash[63:50]` (R53, R80; ADDHASH, SPLIT). -/
def hashedAddress (hash : Word64) : Index := hash.extractLsb' 50 14

/-- `zext_8(rank)`: the value a rank is stored as (R85). -/
def rankValue (r : Rank) : RegValue := r.setWidth 8

/-- SPLIT's data: `zext_64( zext_8(r) ++ 2'b00 ++ i )` (R65, R84), the layout of format U. -/
def splitData (r : Rank) (i : Index) : Word64 := (rankValue r ++ 0#2 ++ i).setWidth 64

/-- RDREG's data: the register zero-extended to 64 bits (R65, R132). -/
def regData (v : RegValue) : Word64 := v.setWidth 64

end Sys2Proof.Machine
end

