-- ==== Sys2Proof/Machine/Access.lean ====
section
/-! DEFINITION. Construction and read-out (`42_merge_access.md`): NOP (rule R130), CLEAR (rule R131), RDREG (rule
R132). -/

namespace Sys2Proof.Machine

/-- NOP (R130). -/
def execNop (s : State) : Host.Outcome State Fault Refusal := .next (s.respond .ok 0)

/-- CLEAR (R131): every register 0 at once (R44). -/
def execClear (s : State) : Host.Outcome State Fault Refusal := .next ((s.setRegs Memory.empty).respond .ok 0)

/-- RDREG (R132): one register, zero-extended. -/
def execRdreg (index : Index) (s : State) : Host.Outcome State Fault Refusal :=
  .next (s.respond .ok (regData (s.reg (directAddress index))))

end Sys2Proof.Machine
end

