-- ==== Sys2Proof/Machine/Float.lean ====
section
/-! DEFINITION. The binary64 primitives of `00_scope.md` rule R11 and `41_estimator.md` rule R120: IEEE 754, round to
nearest with ties to even, gradual underflow, signed zeros, infinities, NaN, no fused operation and no flags.

Every finite binary64 is a whole number of units of `2^-1074`. An operation computes its exact result as a fraction of
whole numbers in that unit and rounds it once, in `roundRatio`. -/

namespace Sys2Proof.Machine

namespace F64

/-- Bit 63 (R11). -/
def sign (x : F64) : Bool := x.getLsbD 63

/-- The exponent field, bits 62:52 (R11). -/
def expField (x : F64) : Nat := x.toNat / 2 ^ 52 % 2048

/-- The fraction field, bits 51:0 (R11). -/
def fraction (x : F64) : Nat := x.toNat % 2 ^ 52

/-- Exponent field all ones with a non-zero fraction. -/
def isNaN (x : F64) : Bool := expField x == 2047 && fraction x != 0

/-- Exponent field all ones with fraction zero. -/
def isInf (x : F64) : Bool := expField x == 2047 && fraction x == 0

/-- A number that is neither an infinity nor NaN. -/
def isFinite (x : F64) : Bool := expField x != 2047

/-- The magnitude of a finite value in units of `2^-1074`. -/
def magnitude (x : F64) : Nat :=
  if expField x = 0 then fraction x else (2 ^ 52 + fraction x) * 2 ^ (expField x - 1)

/-- The value of a finite pattern in units of `2^-1074`; both zeros give 0. -/
def units (x : F64) : Int := if sign x then -(magnitude x : Int) else (magnitude x : Int)

/-- The real number a finite pattern stands for, which is rational. -/
def toRat (x : F64) : ℚ := (units x : ℚ) / 2 ^ 1074

/-- A pattern from its sign and its lower 63 bits. -/
def ofSignMag (neg : Bool) (low : Nat) : F64 := BitVec.ofNat 64 ((if neg then 2 ^ 63 else 0) + low)

/-- `+0.0`. -/
def plusZero : F64 := 0

/-- `-0.0` or `+0.0`. -/
def signedZero (neg : Bool) : F64 := ofSignMag neg 0

/-- `1.0`. -/
def one : F64 := 0x3FF0000000000000

/-- An infinity. -/
def infinity (neg : Bool) : F64 := ofSignMag neg (2047 * 2 ^ 52)

/-- A quiet NaN whose sign and payload are free (log entry 7). -/
def nan (op : Config.FloatOp) (a b : F64) : F64 :=
  let free := Config.nanBits op a b
  free.extractLsb' 51 1 ++ 0xFFF#12 ++ free.extractLsb' 0 51

/-- `Nat.log2 n` by halving the distance: for each `k` from `steps` down, a value of at least `2^(2^k)` sheds `2^k` bits.
It equals `Nat.log2` at every `n` (Laws.Float), and evaluates in a few operations. -/
def floorLog2 (n : Nat) : Nat := shed 12 n
where
  shed : Nat → Nat → Nat
    | 0, n => Nat.log2 n
    | k + 1, n =>
      match n / 2 ^ 2 ^ k with
      | 0 => shed k n
      | q + 1 => 2 ^ k + shed k (q + 1)

/-- The lower 63 bits of the binary64 nearest to `num / den` units of `2^-1074`, ties to even, before the test for
overflow. The quantum is `2^shift` units; a carry out of the significand runs into the exponent field. -/
def roundLow (num den : Nat) : Nat :=
  let shift := floorLog2 (num / den) - 52
  let quantum := den * 2 ^ shift
  let significand := num / quantum
  let twiceRest := 2 * (num % quantum)
  let up := quantum < twiceRest ∨ (quantum = twiceRest ∧ significand % 2 = 1)
  shift * 2 ^ 52 + significand + (if up then 1 else 0)

/-- The binary64 nearest to `num / den` units of `2^-1074` with the given sign, ties to even; a magnitude that rounds
beyond the largest finite number is an infinity. -/
def roundRatio (neg : Bool) (num den : Nat) : F64 :=
  if roundLow num den < 2047 * 2 ^ 52 then ofSignMag neg (roundLow num den) else infinity neg

/-- `fadd` (R11). An exact zero sum is `-0.0` when both operands are negative and `+0.0` otherwise. -/
def fadd (a b : F64) : F64 :=
  if isNaN a || isNaN b then nan .add a b
  else if isInf a then (if isInf b && sign a != sign b then nan .add a b else a)
  else if isInf b then b
  else
    let z := units a + units b
    roundRatio (if z = 0 then sign a && sign b else decide (z < 0)) z.natAbs 1

/-- The value with its sign bit inverted. -/
def neg (x : F64) : F64 := x ^^^ 0x8000000000000000

/-- `fsub` (R11): the sum with the second operand's sign inverted. -/
def fsub (a b : F64) : F64 :=
  if isNaN a || isNaN b then nan .sub a b
  else if isInf a && isInf b && sign a == sign b then nan .sub a b
  else fadd a (neg b)

/-- `fmul` (R11). -/
def fmul (a b : F64) : F64 :=
  let s := sign a != sign b
  if isNaN a || isNaN b then nan .mul a b
  else if isInf a || isInf b then
    (if (isFinite a && magnitude a == 0) || (isFinite b && magnitude b == 0) then nan .mul a b else infinity s)
  else roundRatio s (magnitude a * magnitude b) (2 ^ 1074)

/-- `fdiv` (R11). A zero divisor under a non-zero number gives an infinity, `0/0` is NaN (R113). -/
def fdiv (a b : F64) : F64 :=
  let s := sign a != sign b
  if isNaN a || isNaN b then nan .div a b
  else if isInf a then (if isInf b then nan .div a b else infinity s)
  else if isInf b then signedZero s
  else if magnitude b = 0 then (if magnitude a = 0 then nan .div a b else infinity s)
  else roundRatio s (magnitude a * 2 ^ 1074) (magnitude b)

/-- `u2f(n)`, exact for `n ≤ 2^53` (R11). -/
def u2f (n : Nat) : F64 := roundRatio false (n * 2 ^ 1074) 1

/-- `lit(s)` for the decimal literal `± digits * 10^-places` (R11). -/
def lit (negative : Bool) (digits places : Nat) : F64 := roundRatio negative (digits * 2 ^ 1074) (10 ^ places)

/-- `pow2neg(r)`: sign 0, exponent field `1023 - r`, fraction 0, exactly `2^(-r)` (R11). -/
def pow2neg (r : RegValue) : F64 := BitVec.ofNat 64 ((1023 - r.toNat) * 2 ^ 52)

end F64

end Sys2Proof.Machine
end

