-- ==== Sys2Proof/Machine/Log.lean ====
section
/-! DEFINITION. The logarithm `LN64` of `41_estimator.md` rule R107. The spec leaves it OPEN between two properties: P1,
exact at one, and P2, faithful at 2 to 16385. The model keeps both: at those arguments it computes the two binary64
neighbours of `ln n` and lets a free value of Config choose between them (log entry 5). -/

namespace Sys2Proof.Machine

namespace Log

/-- Fraction bits of the fixed-point logarithm. -/
abbrev fractionBits : Nat := 128

/-- Terms of the series; the first one left out is below `2^-140`. -/
abbrev terms : Nat := 44

/-- `2^128 * atanh(num/den)`, the first `k` terms `z^(2j+1)/(2j+1)` of its series, each rounded down. -/
def atanhFixed (num den : Nat) : Nat → Nat
  | 0 => 0
  | j + 1 => atanhFixed num den j + 2 ^ fractionBits * num ^ (2 * j + 1) / (den ^ (2 * j + 1) * (2 * j + 1))

/-- `2^128 * ln n` from below, within `2^12`: `ln n = k ln 2 + 2 atanh ((n - 2^k)/(n + 2^k))` with `k = floor (log2 n)`,
and `ln 2 = 2 atanh (1/3)`. -/
def lnFixed (n : Nat) : Nat :=
  let k := F64.floorLog2 n
  2 * (k * atanhFixed 1 3 terms + atanhFixed (n - 2 ^ k) (n + 2 ^ k) terms)

/-- The number of bits of `lnFixed n` below the 53 bits of a significand. -/
def lnShift (n : Nat) : Nat := F64.floorLog2 (lnFixed n) - 52

/-- The largest binary64 not above `ln n`, for `n` in 2 to 16385. -/
def lnDown (n : Nat) : F64 :=
  BitVec.ofNat 64 ((lnShift n + 1074 - fractionBits) * 2 ^ 52 + lnFixed n / 2 ^ lnShift n)

/-- The next binary64 above `lnDown n`. -/
def lnUp (n : Nat) : F64 := lnDown n + 1

/-- The binary64 nearest to `ln n`: the correctly rounded logarithm `LN64_CR` at 2 to 16385 (R107). -/
def lnNearest (n : Nat) : F64 :=
  if 2 ^ lnShift n ≤ 2 * (lnFixed n % 2 ^ lnShift n) then lnUp n else lnDown n

/-- The integer `n` in 1 to 16385 that the pattern stands for, the only arguments the estimator has (R105). -/
def argument (x : F64) : Option Nat :=
  let n := F64.magnitude x / 2 ^ 1074
  if 1 ≤ n ∧ n ≤ Config.numRegs + 1 ∧ x = F64.u2f n then some n else none

end Log

/-- `LN64` (R106, R107): `+0.0` at 1.0 (P1); at 2 to 16385 one of the two neighbours of `ln n` (P2), which one is a free
value; elsewhere a free value. A function of its argument alone. -/
def ln64 (x : F64) : F64 :=
  match Log.argument x with
  | some 1 => F64.plusZero
  | some n => if Config.lnRoundsUp x then Log.lnUp n else Log.lnDown n
  | none => Config.ln64Elsewhere x

/-- `LN64_CR` (R107): the default instantiation, correctly rounded; the vectors of `95_test_vectors.md` use it. Where
R107 states nothing it is the same free value as `ln64`. -/
def ln64CR (x : F64) : F64 :=
  match Log.argument x with
  | some 1 => F64.plusZero
  | some n => Log.lnNearest n
  | none => Config.ln64Elsewhere x

end Sys2Proof.Machine
end

