-- ==== Sys2Proof/Machine/Estimator.lean ====
section
/-! DEFINITION. The harmonic estimator (`41_estimator.md` rules R101 to R120) and ESTIMATE (rule R118), and the constant
`alpha` (`10_state.md` rules R25, R26) with RDALPHA (`42_merge_access.md` rule R133). -/

namespace Sys2Proof.Machine

open F64

/-- `alpha(m)` (R25): three special sizes and the asymptotic formula `0.7213 / (1 + 1.079/m)`. -/
def alphaOf (m : Nat) : F64 :=
  if m = 16 then lit false 673 3
  else if m = 32 then lit false 697 3
  else if m = 64 then lit false 709 3
  else fdiv (lit false 7213 4) (fadd one (fdiv (lit false 1079 3) (u2f m)))

/-- `ALPHA = alpha(16384)`, hardwired (R26). -/
def ALPHA : F64 := 0x3FE714801FBCCD72

/-- The coefficients of the bias correction (R104). -/
def C1 : F64 := 0xBFD7B488A9987B73
def C2 : F64 := 0x3FB20A70FF131279
def C3 : F64 := 0x3FC6439022A26C51
def C4 : F64 := 0x3FC4EA3D0AA27058
def C5 : F64 := 0xBFB7A60C6EA34BCA
def C6 : F64 := 0x3FA32381BA54D011
def C7 : F64 := 0xBF760DB32D24B781
def C8 : F64 := 0x3F3BCCBA2D62E4A7

/-- `16384.0`, the number of registers as a binary64. -/
def mFloat : F64 := 0x40D0000000000000

/-- The accumulation of R101 over the first `k` registers: from `+0.0`, ascending, one rounding per addition. -/
def partialSum (f : Nat → RegValue) : Nat → F64
  | 0 => plusZero
  | k + 1 => fadd (partialSum f k) (pow2neg (f k))

/-- `sum` (R101). -/
def harmonicSum (f : Nat → RegValue) : F64 := partialSum f Config.numRegs

/-- The number of the first `k` registers that are 0. -/
def zerosBelow (f : Nat → RegValue) : Nat → Nat
  | 0 => 0
  | k + 1 => zerosBelow f k + (if f k = 0 then 1 else 0)

/-- `ez` (R103). -/
def zeroCount (f : Nat → RegValue) : Nat := zerosBelow f Config.numRegs

/-- The powers of `zl` by repeated multiplication and the eight products added left to right (R108, R109), without a
fused operation; `ezf` is `ez` as a binary64. -/
def betaOf (ezf zl : F64) : F64 :=
  let p1 := zl
  let p2 := fmul p1 zl
  let p3 := fmul p2 zl
  let p4 := fmul p3 zl
  let p5 := fmul p4 zl
  let p6 := fmul p5 zl
  let p7 := fmul p6 zl
  let a2 := fadd (fmul C1 ezf) (fmul C2 p1)
  let a3 := fadd a2 (fmul C3 p2)
  let a4 := fadd a3 (fmul C4 p3)
  let a5 := fadd a4 (fmul C5 p4)
  let a6 := fadd a5 (fmul C6 p5)
  let a7 := fadd a6 (fmul C7 p6)
  fadd a7 (fmul C8 p7)

/-- `beta(ez)` with the logarithm `ln` (R105, R106, R109). -/
def beta (ln : F64 → F64) (ez : Nat) : F64 := betaOf (u2f ez) (ln (fadd (u2f ez) one))

/-- `num = (ALPHA * 16384.0) * (16384.0 - ezf)` (R111). -/
def numerator (ez : Nat) : F64 := fmul (fmul ALPHA mFloat) (fsub mFloat (u2f ez))

/-- `den = beta + sum` (R112). -/
def denominator (ln : F64 → F64) (ez : Nat) (sum : F64) : F64 := fadd (beta ln ez) sum

/-- `q = num / den` (R113). -/
def quotient (ln : F64 → F64) (ez : Nat) (sum : F64) : F64 := fdiv (numerator ez) (denominator ln ez sum)

/-- `trunc(q)` of a finite `q` that is not negative, as a natural number (R114). -/
def truncate (q : F64) : Nat := magnitude q / 2 ^ 1074

/-- `q >= 2^64`, `+infinity` among them (R115). -/
def tooLarge (q : F64) : Bool := !sign q && (isInf q || decide (2 ^ 64 * 2 ^ 1074 ≤ magnitude q))

/-- `q <= -1.0`, `-infinity` among them (R115). -/
def tooSmall (q : F64) : Bool := sign q && (isInf q || decide (2 ^ 1074 ≤ magnitude q))

/-- The conversion of the quotient (R114, R115, R118), in the order R118 writes the tests. -/
def convert (q : F64) : Response :=
  if isNaN q then ⟨.estOor, 0⟩
  else if tooLarge q then ⟨.estOor, 0xFFFFFFFFFFFFFFFF⟩
  else if tooSmall q then ⟨.estOor, 0⟩
  else ⟨.ok, BitVec.ofNat 64 (truncate q)⟩

/-- The estimate of the register values `f` with the logarithm `ln` (R118). -/
def estimateWith (ln : F64 → F64) (f : Nat → RegValue) : Response :=
  convert (quotient ln (zeroCount f) (harmonicSum f))

/-- The estimate the block computes, with the open parameter `LN64` (R107, R118). -/
def estimate (m : Memory) : Response := estimateWith ln64 m.read

/-- ESTIMATE (R118): all registers read from one snapshot, none written (R44, R117). -/
def execEstimate (s : State) : Host.Outcome State Fault Refusal := .next (s.answer (estimate s.regs))

/-- RDALPHA (R133): the bit pattern of `ALPHA`. -/
def execRdalpha (s : State) : Host.Outcome State Fault Refusal := .next (s.respond .ok ALPHA)

end Sys2Proof.Machine
end

