-- ==== Sys2Proof/Machine/Splitter.lean ====
section
/-! DEFINITION. The hash-rank splitter (`40_split_update.md` rules R80 to R86) and the commands built on it and on the
update primitive: SPLIT (R84), UPDATE (R88), ADDHASH (R92). -/

namespace Sys2Proof.Machine

/-- The number of consecutive zero bits of `v` from bit `k - 1` down (R10). -/
def leadingZerosBelow {w : Nat} (v : BitVec w) : Nat → Nat
  | 0 => 0
  | k + 1 => if v.getLsbD k then 0 else 1 + leadingZerosBelow v k

/-- `clz_W(v)`, with `clz_W(0) = W` (R10). -/
def clz {w : Nat} (v : BitVec w) : Nat := leadingZerosBelow v w

/-- `suffix(h) = h[49:0]` (R81). -/
def suffix (hash : Word64) : BitVec 50 := hash.extractLsb' 0 50

/-- `rank(h) = 1 + clz_50(suffix(h))`, the defining form (R82), on the splitter's 6-bit output (R85). -/
def rank (hash : Word64) : Rank := BitVec.ofNat 6 (1 + clz (suffix hash))

/-- `RANK_MASK = 2^14 - 1` (R7, R83). -/
def rankMask : Word64 := 0x3FFF

/-- The rank by the method form (R83): shift the suffix to the top, set the bits the shift brought in, count. -/
def rankByMask (hash : Word64) : Nat := 1 + clz ((hash <<< 14) ^^^ rankMask)

/-- `addhash(S, h) = update(S, index(h), zext_8(rank(h)))` on the register array (R91). -/
def Memory.addHash (m : Memory) (hash : Word64) : Memory :=
  m.update (hashedAddress hash) (rankValue (rank hash))

/-- SPLIT (R84): the splitter's outputs, no state written. -/
def execSplit (hash : Word64) (s : State) : Host.Outcome State Fault Refusal :=
  .next (s.respond .ok (splitData (rank hash) (hashedAddress hash)))

/-- UPDATE (R88): raise one register to at least `value`; the value is not checked (R90). -/
def execUpdate (index : Index) (value : RegValue) (s : State) : Host.Outcome State Fault Refusal :=
  .next ((s.setRegs (s.regs.update (directAddress index) value)).respond .ok 0)

/-- ADDHASH (R92): the splitter, then update. -/
def execAddhash (hash : Word64) (s : State) : Host.Outcome State Fault Refusal :=
  .next ((s.setRegs (s.regs.addHash hash)).respond .ok 0)

end Sys2Proof.Machine
end

