-- ==== Sys2Proof/Machine/Dispatch.lean ====
section
/-! DEFINITION. One arm per command (`30_encoding.md` rule R64), each a direct call of its meaning. -/

namespace Sys2Proof.Machine

def exec (i : Instr) (s : State) : Host.Outcome State Fault Refusal :=
  match i with
  | .nop => Sys2Proof.Machine.execNop s
  | .clear => Sys2Proof.Machine.execClear s
  | .split hash => Sys2Proof.Machine.execSplit hash s
  | .update index value => Sys2Proof.Machine.execUpdate index value s
  | .addhash hash => Sys2Proof.Machine.execAddhash hash s
  | .estimate => Sys2Proof.Machine.execEstimate s
  | .rdreg index => Sys2Proof.Machine.execRdreg index s
  | .rdalpha => Sys2Proof.Machine.execRdalpha s

end Sys2Proof.Machine
end

