-- ==== Sys2Proof/Machine/Port.lean ====
section
/-! DEFINITION. The signals of `30_encoding.md` rule R60 at one rising edge of `clk`, and the port events they make. The
model's step has no clock (rule R60, `00_scope.md` rule R13): it starts from the events. -/

namespace Sys2Proof.Machine

/-- The signals sampled at one rising edge (R60). `cmdReady` and `rspValid` are the block's, and when it raises them the
spec does not say (R176, R177); the others are the host's. -/
structure Edge where
  rst : Bool
  cmdValid : Bool
  cmdReady : Bool
  cmd : PortWord
  rspValid : Bool
  rspReady : Bool
  deriving DecidableEq, Repr

/-- A command is accepted: `rst = 0`, `cmd_valid = 1`, `cmd_ready = 1` (R60). -/
def Edge.accepts (e : Edge) : Bool := !e.rst && e.cmdValid && e.cmdReady

/-- A response is delivered: `rst = 0`, `rsp_valid = 1`, `rsp_ready = 1` (R60). -/
def Edge.delivers (e : Edge) : Bool := !e.rst && e.rspValid && e.rspReady

/-- The events of one edge. On an edge with both, the response delivered is of an earlier command than the one accepted
(DEDUCED, log entry 14). -/
def Edge.events (e : Edge) : List PortEvent :=
  (if e.rst then [.reset] else []) ++ (if e.delivers then [.take] else []) ++
    (if e.accepts then [.command e.cmd] else [])

/-- The state with the events of a further edge to come. -/
def State.clockEdge (s : State) (e : Edge) : State := { s with inbox := s.inbox ++ e.events }

end Sys2Proof.Machine
end

