-- ==== Sys2Proof/Machine/Pseudo.lean ====
section
/-! DEFINITION. The pseudo-commands of `30_encoding.md` rule R71 (`42_merge_access.md` rules R136 to R139): sequences of
commands the host sends. -/

namespace Sys2Proof.Machine

/-- `UPDATE i, src[i]` for the values of `src` at the indices from `i` up. -/
def updatesFrom : Nat → List RegValue → List Instr
  | _, [] => []
  | i, v :: rest => .update (BitVec.ofNat 14 i) v :: updatesFrom (i + 1) rest

/-- `MERGE src` (R136), `src` the other sketch's registers in index order. -/
def mergeCommands (src : List RegValue) : List Instr := updatesFrom 0 src

/-- `LOAD src` (R138): CLEAR, then `MERGE src`. -/
def loadCommands (src : List RegValue) : List Instr := .clear :: mergeCommands src

/-- `DUMP` (R137): RDALPHA, then `RDREG i` for every `i` ascending. -/
def dumpCommands : List Instr :=
  .rdalpha :: (List.range Config.numRegs).map (fun i => .rdreg (BitVec.ofNat 14 i))

/-- `ADD bytes` (R139): ADDHASH of the host's own hash of the bytes; the hash function is a parameter (U10). -/
def addCommand (hostHash : List (BitVec 8) → Word64) (bytes : List (BitVec 8)) : Instr :=
  .addhash (hostHash bytes)

/-- The host presents commands at the command port, after everything it presented before (R47, R60). -/
def State.present (s : State) (cmds : List Instr) : State :=
  { s with inbox := s.inbox ++ cmds.map (fun i => .command (encode i)) }

end Sys2Proof.Machine
end

