-- ==== Sys2Proof/Machine/Step.lean ====
section
/-! DEFINITION. One step of the machine: it meets the oldest event at its ports. There is no program counter and no
fetch (`10_state.md` rule R24); the next command is the one the host presents next (`20_memory.md` rule R47). -/

namespace Sys2Proof.Machine

/-- The state once the oldest event has been met. -/
def State.withInbox (s : State) (rest : List PortEvent) : State := { s with inbox := rest }

/-- One accepted command word, as one atomic transition: decoded first (R153), then run, or answered ILLEGAL_CMD (R44,
R150). -/
def runWord (w : PortWord) (s : State) : Host.Outcome State Fault Refusal :=
  match decode w with
  | .ok i => exec i s
  | .error _ => .next s.illegalCommand

/-- One step. With nothing presented the block is idle and holds its state (R162). -/
def step (s : State) : Host.Outcome State Fault Refusal :=
  match s.inbox with
  | [] => .next s
  | .command w :: rest => runWord w (s.withInbox rest)
  | .take :: rest => .next (s.withInbox rest).deliver
  | .reset :: rest => .next (s.withInbox rest).takeReset

/-- The state in which the very next step meets the command word `w` of the opcode table's numbering (log entry 2). -/
def State.withFetchWord (s : State) (nbits w : Nat) : State :=
  { s with inbox := .command (tableWord nbits w) :: s.inbox }

end Sys2Proof.Machine
end

