-- ==== Sys2Proof/Safety.lean ====
section
/-! DEFINITION. What counts as a safe run, and the spec's own whole-machine functions in which claims are stated:
`step : State -> Command -> State x Response` of `00_scope.md` rule R13 on the register array alone, and its fold over a
command stream (`20_memory.md` rule R47). -/

namespace Sys2Proof.Machine

/-- The invariant: the register array is in its canonical form, so that two equal arrays are equal data (R20). -/
def State.Inv (s : State) : Prop := s.regs.wf = true

/-- Every register is at most `RANK_MAX = 51` (R22): true of runs whose UPDATE values are, not an invariant of every
state. -/
def Memory.AtMostRankMax (m : Memory) : Prop := ∀ i : Index, (m.read i.toNat).toNat ≤ Config.rankMax

/-- The step ends in a next state: no fault, no refusal. -/
def Answers (o : Host.Outcome State Fault Refusal) : Prop := ∃ t, o = .next t

/-- A safe run: `k` steps from the state all answer a next state. -/
def SafeFor (k : Nat) (s : State) : Prop := Answers (Sys2Proof.core.run k s)

/-- The binary64 `x` is a nearest one to the real (here rational) number `q`, and on a tie its last significand bit is
even: round to nearest, ties to even (`00_scope.md` rule R11). -/
def F64.NearestEven (q : ℚ) (x : F64) : Prop :=
  F64.isFinite x = true ∧
    ∀ y : F64, F64.isFinite y = true →
      |F64.toRat x - q| ≤ |F64.toRat y - q| ∧
        (|F64.toRat x - q| = |F64.toRat y - q| → F64.toRat y ≠ F64.toRat x → F64.fraction x % 2 = 0)

/-- `x` is the exact result `q` rounded once: the nearest binary64, and an infinity of the sign of `q` where `q` is at
least half a quantum beyond the largest finite number (R11). -/
def F64.Rounded (q : ℚ) (x : F64) : Prop :=
  (|q| < 2 ^ 1024 - 2 ^ 970 → F64.NearestEven q x) ∧
    (2 ^ 1024 - 2 ^ 970 ≤ |q| → x = F64.infinity (decide (q < 0)))

/-- A tree of adders, its leaves the terms `pow2neg(reg[i])` (R102, R175 c): what an implementation may put in place of the
ascending walk where every order gives the same bits. -/
inductive AdderTree
  | term (i : Nat)
  | adder (left right : AdderTree)
  deriving DecidableEq, Repr

/-- The indices of the terms at the leaves, left to right. -/
def AdderTree.indices : AdderTree → List Nat
  | .term i => [i]
  | .adder left right => left.indices ++ right.indices

/-- What the tree adds up to, one rounding per adder. -/
def AdderTree.sum (f : Nat → RegValue) : AdderTree → F64
  | .term i => F64.pow2neg (f i)
  | .adder left right => F64.fadd (left.sum f) (right.sum f)

/-- One legal command on the register array: the array after it and its response. -/
def commandStep (m : Memory) : Instr → Memory × Response
  | .nop => (m, ⟨.ok, 0⟩)
  | .clear => (Memory.empty, ⟨.ok, 0⟩)
  | .split hash => (m, ⟨.ok, splitData (rank hash) (hashedAddress hash)⟩)
  | .update index value => (m.update index value, ⟨.ok, 0⟩)
  | .addhash hash => (m.addHash hash, ⟨.ok, 0⟩)
  | .estimate => (m, estimate m)
  | .rdreg index => (m, ⟨.ok, regData (m.read index.toNat)⟩)
  | .rdalpha => (m, ⟨.ok, ALPHA⟩)

/-- `step` of R13, total on every 72-bit command word. -/
def wordStep (m : Memory) (w : PortWord) : Memory × Response :=
  match decode w with
  | .ok i => commandStep m i
  | .error _ => (m, ⟨.illegalCmd, 0⟩)

/-- The fold of R13 and R47 over a stream of command words: the array at the end and the responses in order. -/
def streamRun (m : Memory) : List PortWord → Memory × List Response
  | [] => (m, [])
  | w :: ws =>
    let (m', r) := wordStep m w
    let (m'', rs) := streamRun m' ws
    (m'', r :: rs)

end Sys2Proof.Machine
end

