-- ==== Sys2Proof/Certificates/Slice0/Obligations.lean ====
section
/-! DEFINITION. The statements for the provers: `def Obligations.<Name> : Prop`, listed in OBLIGATIONS.json. A statement
about a command holds for every state, reachable or not, unless it names a premise. -/

open Sys2Proof Sys2Proof.Machine

/-! ### Encoding and decoding -/

/-- R63, R66, R67, R72: what the decoder reads from every 72-bit word, in numbers: the opcode is the word divided by
`2^64`, the operand `x` the rest. -/
def Obligations.DecoderReadsEveryWord : Prop :=
  ∀ (op : Nat) (x : Nat), op < 2 ^ 8 → x < 2 ^ 64 →
    let d := decode (BitVec.ofNat 72 (op * 2 ^ 64 + x))
    let zeroFormat := fun i : Instr => if x = 0 then d = .ok i else d = .error .mustBeZero
    (op = 0x00 → zeroFormat .nop) ∧
    (op = 0x01 → zeroFormat .clear) ∧
    (op = 0x02 → d = .ok (.split (BitVec.ofNat 64 x))) ∧
    (op = 0x03 → if x / 2 ^ 24 = 0 ∧ x / 2 ^ 14 % 2 ^ 2 = 0
      then d = .ok (.update (BitVec.ofNat 14 (x % 2 ^ 14)) (BitVec.ofNat 8 (x / 2 ^ 16))) else d = .error .mustBeZero) ∧
    (op = 0x04 → d = .ok (.addhash (BitVec.ofNat 64 x))) ∧
    (op = 0x05 → zeroFormat .estimate) ∧
    (op = 0x06 → if x / 2 ^ 14 = 0 then d = .ok (.rdreg (BitVec.ofNat 14 x)) else d = .error .mustBeZero) ∧
    (op = 0x07 → zeroFormat .rdalpha) ∧
    (0x08 ≤ op → d = .error .reservedOpcode)

/-- R72: `decode(encode(c)) = c`, for every command and every value of its operands. -/
def Obligations.DecodeOfEncodeIsTheCommand : Prop := ∀ i : Instr, decode (encode i) = .ok i

/-- R72: each legal command has exactly one word: a word that decodes to a command is the command's own word. -/
def Obligations.EveryLegalWordIsTheEncoding : Prop := ∀ (w : PortWord) (i : Instr), decode w = .ok i → encode i = w

/-- R64: a word spells a row of the opcode table exactly when it decodes to a command of the row's mnemonic. -/
def Obligations.WordSpellsRowExactlyWhenItDecodesToIt : Prop :=
  ∀ (w : PortWord) (r : OpcodeRow), r ∈ opcodeTable →
    (r.spelledBy w = true ↔ ∃ i : Instr, decode w = .ok i ∧ i.mnemonic = r.mnemonic)

/-- Section 2.6 of `95_test_vectors.md`: the number of legal words. -/
def Obligations.NumberOfLegalWords : Prop :=
  Nat.card { w : PortWord // ∃ i, decode w = .ok i } = 1 + 1 + 2 ^ 64 + 2 ^ 22 + 2 ^ 64 + 1 + 2 ^ 14 + 1

/-- Words written out from R61, R63 and R64 bit by bit, one per command, decode to the commands they stand for. -/
def Obligations.WrittenWordsDecodeToTheirCommands : Prop :=
  decode 0x000000000000000000 = .ok .nop ∧
  decode 0x010000000000000000 = .ok .clear ∧
  decode 0x02DEADBEEFCAFEBABE = .ok (.split 0xDEADBEEFCAFEBABE) ∧
  decode 0x030000000000FF3FFF = .ok (.update 16383 255) ∧
  decode 0x04DEADBEEFCAFEBABE = .ok (.addhash 0xDEADBEEFCAFEBABE) ∧
  decode 0x050000000000000000 = .ok .estimate ∧
  decode 0x060000000000003FFF = .ok (.rdreg 16383) ∧
  decode 0x070000000000000000 = .ok .rdalpha

/-- R70: a line assembles exactly when its operands are in the ranges R70 states, a hash below `2^64`, an index 0 to 16383,
a value 0 to 255, and then to the command whose line it is; every command is some line's; and R70's two example words. -/
def Obligations.LinesInRangeAssemble : Prop :=
  (∀ l : Line, (l.wellFormed = true → ∃ i, l.assemble = some i ∧ i.line = l) ∧
    (l.wellFormed = false → l.assemble = none)) ∧
  (∀ i : Instr, i.line.assemble = some i) ∧
  (∀ h : Nat, (Line.split h).assemble = (if h < 2 ^ 64 then some (.split (BitVec.ofNat 64 h)) else none) ∧
    (Line.addhash h).assemble = (if h < 2 ^ 64 then some (.addhash (BitVec.ofNat 64 h)) else none)) ∧
  (∀ index value : Nat, (Line.update index value).assemble =
    if index < 16384 ∧ value < 256 then some (.update (BitVec.ofNat 14 index) (BitVec.ofNat 8 value)) else none) ∧
  (∀ index : Nat, (Line.rdreg index).assemble =
    if index < 16384 then some (.rdreg (BitVec.ofNat 14 index)) else none) ∧
  (Line.update 5 3).assemble.map encode = some 0x030000000000030005 ∧
  (Line.addhash 0xDEADBEEFCAFEBABE).assemble.map encode = some 0x04DEADBEEFCAFEBABE

/-! ### The step and the ports -/

/-- When the oldest event is a command word that decodes to a command, the step runs that command on the state in which
the word has been taken from the port (R44, R47). -/
def Obligations.StepRunsTheDecodedCommand : Prop :=
  ∀ (s : State) (w : PortWord) (rest : List PortEvent) (i : Instr),
    s.inbox = .command w :: rest → decode w = .ok i → step s = exec i { s with inbox := rest }

/-- R150: an illegal word changes no register and is answered ILLEGAL_CMD with data 0; the block goes on. -/
def Obligations.IllegalWordIsAnsweredAndChangesNoRegister : Prop :=
  ∀ (s : State) (w : PortWord) (rest : List PortEvent) (e : Illegal),
    s.inbox = .command w :: rest → decode w = .error e →
      step s = .next { s with inbox := rest, pending := s.pending ++ [⟨.illegalCmd, 0⟩] }

/-- R162: with nothing presented the block is idle and holds its state. That one idle step answers the same state, so that
idle steps can be counted, is the model's reading (DEDUCED, log entry 3). -/
def Obligations.IdleBlockHoldsItsState : Prop := ∀ s : State, s.inbox = [] → step s = .next s

/-- R170, R171, R172: reset leaves every register 0 and drops every response not yet delivered. That what was delivered
stays delivered and later events stay to come is the model's reading (log entry 11). -/
def Obligations.ResetEmptiesTheSketchAndDropsResponses : Prop :=
  ∀ (s : State) (rest : List PortEvent), s.inbox = .reset :: rest →
    ∃ t, step s = .next t ∧ (∀ i : Index, t.reg i = 0) ∧ t.regs = State.reset.regs ∧ t.pending = [] ∧
      t.inbox = rest ∧ t.delivered = s.delivered

/-- R60, R62: responses are delivered one at a time in the order of their commands, each as the word `status ++ data`;
delivering changes no register. Where the host is ready more often than there are responses, it gets those there are and
the other events only leave the inbox (DEDUCED, log entry 12). -/
def Obligations.ResponsesAreDeliveredInOrder : Prop :=
  ∀ (s : State) (n : Nat) (rest : List PortEvent), s.inbox = List.replicate n .take ++ rest →
    Sys2Proof.core.run n s = .next { s with
      inbox := rest
      pending := s.pending.drop n
      delivered := s.delivered ++ (s.pending.take n).map (fun r => r.status.code ++ r.data) }

/-- R60, R170: what one rising edge of the clock makes: under `rst` a reset alone; otherwise one delivery exactly when
`rsp_valid` and `rsp_ready` are 1, one acceptance of `cmd` exactly when `cmd_valid` and `cmd_ready` are 1, and nothing
else. That the delivery comes first on an edge with both is the model's reading (DEDUCED, log entry 14). -/
def Obligations.EdgeEventsFollowTheHandshakes : Prop :=
  ∀ e : Edge,
    (e.rst = true → e.events = [.reset]) ∧
    (e.rst = false → e.events =
      (if e.rspValid = true ∧ e.rspReady = true then [.take] else []) ++
        (if e.cmdValid = true ∧ e.cmdReady = true then [.command e.cmd] else []))

/-- R177: the step is total, with no stuck state: every run of any length from any state answers a next state. -/
def Obligations.EveryRunAnswers : Prop := ∀ (k : Nat) (s : State), ∃ t, Sys2Proof.core.run k s = .next t

/-- R171: after reset every register is 0. The second clause, that the list which holds the array is in canonical form, is
about the model's representation (DESIGN CHOICE, log entry 9). -/
def Obligations.ResetStateIsTheEmptySketch : Prop := (∀ i : Index, State.reset.reg i = 0) ∧ State.reset.Inv

/-- Every step keeps the list that holds the register array in its canonical form. The form is the model's representation
of the array (DESIGN CHOICE, log entry 9), so this is the model's invariant and no rule of the spec. -/
def Obligations.EveryStepKeepsTheCanonicalForm : Prop := ∀ s t : State, s.Inv → step s = .next t → t.Inv

/-- R20: two register arrays that agree at every index are equal. -/
def Obligations.ArraysEqualWhenTheyAgreeEverywhere : Prop :=
  ∀ m n : Memory, m.wf = true → n.wf = true → (∀ i : Index, m.read i.toNat = n.read i.toNat) → m = n

/-- R13, R47: a run over a stream of command words, legal or not, is the fold of R13's `step` over the stream: it leaves
the fold's array, and appends the fold's responses, one for each word, in order. -/
def Obligations.RunOverCommandsIsTheFoldOfStep : Prop :=
  ∀ (s : State) (ws : List PortWord) (rest : List PortEvent), s.inbox = ws.map .command ++ rest →
    (streamRun s.regs ws).2.length = ws.length ∧
    Sys2Proof.core.run ws.length s = .next { s with
      regs := (streamRun s.regs ws).1
      inbox := rest
      pending := s.pending ++ (streamRun s.regs ws).2 }

/-- R31: no hidden state: the array after a command word and its response depend on the word and the register values
alone. -/
def Obligations.CommandSeesTheRegistersAlone : Prop :=
  ∀ (w : PortWord) (s s' : State), (∀ i : Index, s.reg i = s'.reg i) →
    ∃ t t' r, runWord w s = .next t ∧ runWord w s' = .next t' ∧
      t.pending = s.pending ++ [r] ∧ t'.pending = s'.pending ++ [r] ∧ (∀ i : Index, t.reg i = t'.reg i)

/-- R150: an illegal word leaves no trace: without the illegal words a stream leaves the same array and the legal words'
responses are the same. -/
def Obligations.IllegalWordsLeaveNoTrace : Prop :=
  ∀ (m : Memory) (ws : List PortWord),
    let legal := ws.filter (fun w => match decode w with | .ok _ => true | .error _ => false)
    (streamRun m legal).1 = (streamRun m ws).1 ∧
      (streamRun m legal).2 = (streamRun m ws).2.filter (fun r => r.status != .illegalCmd)

/-- R74: the three status codes, what produces each, and that bit 7 is set exactly when the command was not executed. -/
def Obligations.StatusSaysWhatWasDone : Prop :=
  Status.ok.code = 0x00 ∧ Status.estOor.code = 0x01 ∧ Status.illegalCmd.code = 0x80 ∧
  ∀ (w : PortWord) (s : State), ∃ t r, runWord w s = .next t ∧ t.pending = s.pending ++ [r] ∧
    (∀ e, decode w = .error e → r = ⟨.illegalCmd, 0⟩) ∧
    (∀ i, decode w = .ok i → r.status = .ok ∨ (i = .estimate ∧ r.status = .estOor)) ∧
    (r.status.code.getLsbD 7 = true ↔ ∃ e, decode w = .error e)

/-! ### The eight commands -/

/-- R130: NOP does nothing and answers (OK, 0); its word is all zero, and a non-zero operand makes the word illegal. -/
def Obligations.NopDoesNothing : Prop :=
  encode .nop = 0 ∧
  (∀ x : Word64, x ≠ 0 → decode (0x00#8 ++ x) = .error .mustBeZero) ∧
  ∀ s : State, exec .nop s = .next { s with pending := s.pending ++ [⟨.ok, 0⟩] }

/-- R131: CLEAR makes every register 0, leaving the array of the reset state, and answers (OK, 0); nothing else changes. -/
def Obligations.ClearEmptiesTheSketch : Prop :=
  ∀ s : State, ∃ t, exec .clear s = .next t ∧ (∀ i : Index, t.reg i = 0) ∧ t.regs = State.reset.regs ∧
    t.pending = s.pending ++ [⟨.ok, 0⟩] ∧ t.inbox = s.inbox ∧ t.delivered = s.delivered

/-- R84: SPLIT answers (OK, `r * 65536 + i`) with the index and the rank of the hash, and changes no register, for every
hash; with R84's corner cases. The rank is given by the floor of the logarithm, as R10 gives `clz`. -/
def Obligations.SplitAnswersRankAndIndex : Prop :=
  ∀ (h : Word64) (s : State), ∃ d : Word64,
    exec (.split h) s = .next { s with pending := s.pending ++ [⟨.ok, d⟩] } ∧
    d.toNat = (if h.toNat % 2 ^ 50 = 0 then 51 else 50 - Nat.log2 (h.toNat % 2 ^ 50)) * 65536 + h.toNat / 2 ^ 50 ∧
    (encode (.split h)).toNat = 0x02 * 2 ^ 64 + h.toNat ∧
    (h = 0 → d = 0x330000) ∧ (h = 0xFFFFFFFFFFFFFFFF → d = 0x13FFF) ∧ (h = 0xDEADBEEFCAFEBABE → d = 0x237AB)

/-- R87, R88, R90: UPDATE makes `reg[index]` the maximum of itself and the value, an unsigned comparison, whatever the
8-bit value; it changes no other register, and nothing at all when the value is not larger. -/
def Obligations.UpdateRaisesOneRegister : Prop :=
  ∀ (index : Index) (value : RegValue) (s : State), ∃ t,
    exec (.update index value) s = .next t ∧
    (t.reg index).toNat = max (s.reg index).toNat value.toNat ∧
    (∀ a : Nat, a ≠ index.toNat → t.regs.read a = s.regs.read a) ∧
    (value.toNat ≤ (s.reg index).toNat → t.regs = s.regs) ∧
    t.pending = s.pending ++ [⟨.ok, 0⟩] ∧ t.inbox = s.inbox ∧ t.delivered = s.delivered

/-- R91, R92: ADDHASH makes the register of the hash's index the maximum of itself and the hash's rank, which leaves it
at least 1; it changes no other register; the same hash again changes nothing. -/
def Obligations.AddhashRaisesTheRegisterOfTheHash : Prop :=
  ∀ (h : Word64) (s : State), ∃ t,
    exec (.addhash h) s = .next t ∧
    (t.reg (h.extractLsb' 50 14)).toNat = max (s.reg (h.extractLsb' 50 14)).toNat (rank h).toNat ∧
    1 ≤ (t.reg (h.extractLsb' 50 14)).toNat ∧
    (∀ a : Nat, a ≠ h.toNat / 2 ^ 50 → t.regs.read a = s.regs.read a) ∧
    t.pending = s.pending ++ [⟨.ok, 0⟩] ∧ t.inbox = s.inbox ∧ t.delivered = s.delivered ∧
    exec (.addhash h) t = .next { t with pending := t.pending ++ [⟨.ok, 0⟩] }

/-- R101, R103, R105, R106, R108, R109, R111 to R115, R118: ESTIMATE written out: it answers what R118's pseudocode
computes and changes no register. The comparisons and the truncation are on the rational number the quotient stands for. -/
def Obligations.EstimateComputesTheFormula : Prop :=
  ∀ s : State,
    let sum := (List.range 16384).foldl (fun acc i => F64.fadd acc (F64.pow2neg (s.regs.read i))) F64.plusZero
    let ez := ((List.range 16384).filter (fun i => s.regs.read i = 0)).length
    let ezf := F64.u2f ez
    let zl := ln64 (F64.fadd ezf F64.one)
    let p1 := zl
    let p2 := F64.fmul p1 zl
    let p3 := F64.fmul p2 zl
    let p4 := F64.fmul p3 zl
    let p5 := F64.fmul p4 zl
    let p6 := F64.fmul p5 zl
    let p7 := F64.fmul p6 zl
    let beta := F64.fadd (F64.fadd (F64.fadd (F64.fadd (F64.fadd (F64.fadd (F64.fadd
      (F64.fmul 0xBFD7B488A9987B73 ezf) (F64.fmul 0x3FB20A70FF131279 p1)) (F64.fmul 0x3FC6439022A26C51 p2))
      (F64.fmul 0x3FC4EA3D0AA27058 p3)) (F64.fmul 0xBFB7A60C6EA34BCA p4)) (F64.fmul 0x3FA32381BA54D011 p5))
      (F64.fmul 0xBF760DB32D24B781 p6)) (F64.fmul 0x3F3BCCBA2D62E4A7 p7)
    let num := F64.fmul (F64.fmul 0x3FE714801FBCCD72 0x40D0000000000000) (F64.fsub 0x40D0000000000000 ezf)
    let den := F64.fadd beta sum
    let q := F64.fdiv num den
    let r : Response :=
      if F64.isNaN q = true then ⟨.estOor, 0⟩
      else if q = F64.infinity false ∨ (F64.isFinite q = true ∧ 2 ^ 64 ≤ F64.toRat q) then ⟨.estOor, 0xFFFFFFFFFFFFFFFF⟩
      else if q = F64.infinity true ∨ (F64.isFinite q = true ∧ F64.toRat q ≤ -1) then ⟨.estOor, 0⟩
      else ⟨.ok, BitVec.ofNat 64 ⌊F64.toRat q⌋.toNat⟩
    exec .estimate s = .next { s with pending := s.pending ++ [r] }

/-- R132: RDREG answers the register zero-extended, whatever it holds, and changes no register; the index is the operand,
and an operand above 16383 makes the word illegal. -/
def Obligations.RdregAnswersTheRegister : Prop :=
  (∀ x : Word64, 16384 ≤ x.toNat → decode (0x06#8 ++ x) = .error .mustBeZero) ∧
  ∀ (index : Index) (s : State), ∃ d : Word64,
    exec (.rdreg index) s = .next { s with pending := s.pending ++ [⟨.ok, d⟩] } ∧
    d.toNat = (s.reg index).toNat ∧
    (encode (.rdreg index)).toNat = 0x06 * 2 ^ 64 + index.toNat

/-- R133: RDALPHA answers the bit pattern of ALPHA at every state and changes no register; a non-zero operand makes the
word illegal. -/
def Obligations.RdalphaAnswersAlpha : Prop :=
  encode .rdalpha = 0x070000000000000000 ∧
  (∀ x : Word64, x ≠ 0 → decode (0x07#8 ++ x) = .error .mustBeZero) ∧
  ∀ s : State, exec .rdalpha s = .next { s with pending := s.pending ++ [⟨.ok, 0x3FE714801FBCCD72⟩] }

/-! ### The splitter -/

/-- R80, R81: the index is the top 14 bits, `floor(h / 2^50)`, and every index is some hash's; index and suffix are all of
the hash. -/
def Obligations.HashIsIndexAndSuffix : Prop :=
  (∀ h : Word64, (hashedAddress h).toNat = h.toNat / 2 ^ 50 ∧ (suffix h).toNat = h.toNat % 2 ^ 50 ∧
    hashedAddress h ++ suffix h = h) ∧
  ∀ i : Index, ∃ h : Word64, hashedAddress h = i

/-- R82: the table of ranks: exactly `k` leading zeros of the suffix give `k + 1`, an all-zero suffix gives 51. -/
def Obligations.RankCountsLeadingZeros : Prop :=
  ∀ h : Word64,
    (∀ k ≤ 49, (∀ j < k, h.getLsbD (49 - j) = false) → h.getLsbD (49 - k) = true → (rank h).toNat = k + 1) ∧
    ((∀ j < 50, h.getLsbD j = false) → (rank h).toNat = 51)

/-- R83: the method form with `RANK_MASK = 0x3FFF` equals the defining form for every hash, its pattern is never zero, and
with the mask `2^50 - 1` it gives 15 for the hash 0. -/
def Obligations.RankByMaskEqualsRank : Prop :=
  rankMask.toNat = 2 ^ 14 - 1 ∧
  (∀ h : Word64, rankByMask h = (rank h).toNat ∧ (h <<< 14) ^^^ rankMask ≠ 0) ∧
  1 + clz (((0 : Word64) <<< 14) ^^^ 0x0003FFFFFFFFFFFF) = 15

/-- R85: the rank is 1 to 51 for every hash and both ends are reached: 1 whenever `h[49] = 1`, 51 whenever `h[49:0] = 0`;
a register stores it zero-extended, and one that has received a hash is not 0. -/
def Obligations.RankIsOneToFiftyOne : Prop :=
  ∀ h : Word64,
    1 ≤ (rank h).toNat ∧ (rank h).toNat ≤ 51 ∧ (rankValue (rank h)).toNat = (rank h).toNat ∧
    (h.getLsbD 49 = true → (rank h).toNat = 1) ∧ (h.toNat % 2 ^ 50 = 0 → (rank h).toNat = 51) ∧
    ∀ m : Memory, (m.addHash h).read (h.toNat / 2 ^ 50) ≠ 0

/-- R93: if SPLIT of a hash answers data `d`, then `d` as an UPDATE operand is a legal word and leaves the array that
ADDHASH of the hash leaves. -/
def Obligations.SplitThenUpdateIsAddhash : Prop :=
  ∀ (h : Word64) (s : State), ∃ (d : Word64) (i : Index) (v : RegValue) (t u : State),
    exec (.split h) s = .next { s with pending := s.pending ++ [⟨.ok, d⟩] } ∧
    decode (0x03#8 ++ d) = .ok (.update i v) ∧
    exec (.update i v) s = .next t ∧ exec (.addhash h) s = .next u ∧ t.regs = u.regs

/-! ### The register array -/

/-- R89: the laws of the update primitive: monotone, idempotent, commutative, zero neutral, 255 absorbing. -/
def Obligations.UpdateLawsHold : Prop :=
  ∀ (m : Memory) (i j : Index) (v u : RegValue), m.wf = true →
    (m.read j.toNat).toNat ≤ ((m.update i v).read j.toNat).toNat ∧
    (m.update i v).update i v = m.update i v ∧
    (m.update i v).update j u = (m.update j u).update i v ∧
    m.update i 0 = m ∧
    (m.update i 255).read i.toNat = 255 ∧ (((m.update i 255).update j u).read i.toNat = 255)

/-- R32: no step lowers a register except reset and CLEAR. -/
def Obligations.RegistersNeverDecreaseOutsideClearAndReset : Prop :=
  ∀ s t : State, step s = .next t → (∀ rest, s.inbox ≠ .reset :: rest) →
    (∀ w rest, s.inbox = .command w :: rest → decode w ≠ .ok .clear) →
    ∀ i : Index, (s.reg i).toNat ≤ (t.reg i).toNat

/-- R23: no command word but CLEAR's changes more than one register. -/
def Obligations.OnlyClearChangesTwoRegisters : Prop :=
  ∀ (w : PortWord) (s t : State), runWord w s = .next t → decode w ≠ .ok .clear →
    ∀ a b : Nat, a ≠ b → t.regs.read a ≠ s.regs.read a → t.regs.read b = s.regs.read b

/-- R22: from the reset state, if every UPDATE command presented carried a value of at most 51, then every register is at
most 51. The step lemma is StepKeepsRanksAtMostFiftyOne. -/
def Obligations.RanksStayAtMostFiftyOne : Prop :=
  ∀ (events : List PortEvent) (k : Nat) (t : State),
    (∀ w i v, .command w ∈ events → decode w = .ok (.update i v) → v.toNat ≤ 51) →
    Sys2Proof.core.run k { State.reset with inbox := events } = .next t →
    ∀ i : Index, (t.reg i).toNat ≤ 51

/-- The step of R22: a state whose registers are all at most 51 keeps that over every step whose oldest event is not the
word of an UPDATE with a value above 51, whatever else the state holds. -/
def Obligations.StepKeepsRanksAtMostFiftyOne : Prop :=
  ∀ s t : State, s.regs.AtMostRankMax →
    (∀ w rest i v, s.inbox = .command w :: rest → decode w = .ok (.update i v) → v.toNat ≤ 51) →
    step s = .next t → t.regs.AtMostRankMax

/-! ### Merge and read-out -/

/-- R134, R135: merge is the register-wise maximum, commutative, idempotent, associative, with the empty sketch neutral. -/
def Obligations.MergeLawsHold : Prop :=
  ∀ a b c : Memory, a.wf = true → b.wf = true → c.wf = true →
    (∀ i : Index, ((a.merge b).read i.toNat).toNat = max (a.read i.toNat).toNat (b.read i.toNat).toNat) ∧
    a.merge b = b.merge a ∧ a.merge a = a ∧ (a.merge b).merge c = a.merge (b.merge c) ∧ a.merge Memory.empty = a

/-- R135, last sentence: merging two ingested sketches is ingesting both streams into one, in any order. -/
def Obligations.MergeIsIngestingBothStreams : Prop :=
  ∀ hs ks both : List Word64, both.Perm (hs ++ ks) →
    (hs.foldl Memory.addHash Memory.empty).merge (ks.foldl Memory.addHash Memory.empty) =
      both.foldl Memory.addHash Memory.empty

/-- R136: the UPDATE commands of MERGE, in any order, leave every register the maximum of its old value and the source's,
each answered (OK, 0). -/
def Obligations.MergeCommandsLeaveTheMaximum : Prop :=
  ∀ (s : State) (src : List RegValue) (cmds : List Instr), src.length = 16384 → s.inbox = [] →
    cmds.Perm (mergeCommands src) →
    ∃ t, Sys2Proof.core.run 16384 (s.present cmds) = .next t ∧
      (∀ i : Index, (t.reg i).toNat = max (s.reg i).toNat (src.getD i.toNat 0).toNat) ∧
      t.inbox = [] ∧ t.pending = s.pending ++ List.replicate 16384 ⟨.ok, 0⟩ ∧ t.delivered = s.delivered

/-- R138: LOAD leaves `reg[i] = src[i]` for every index, whatever the registers held. -/
def Obligations.LoadLeavesTheSource : Prop :=
  ∀ (s : State) (src : List RegValue), src.length = 16384 → s.inbox = [] →
    ∃ t, Sys2Proof.core.run 16385 (s.present (loadCommands src)) = .next t ∧
      (∀ i : Index, t.reg i = src.getD i.toNat 0) ∧ t.inbox = []

/-- R137: DUMP answers ALPHA and then every register in index order, and does not change the registers. -/
def Obligations.DumpAnswersAlphaAndEveryRegister : Prop :=
  ∀ s : State, s.inbox = [] →
    Sys2Proof.core.run 16385 (s.present dumpCommands) = .next { s with
      pending := s.pending ++ ⟨.ok, 0x3FE714801FBCCD72⟩ ::
        (List.range 16384).map (fun i => ⟨.ok, BitVec.ofNat 64 (s.regs.read i).toNat⟩) }

/-- R138: DUMP followed by LOAD of what was dumped, into the same or another block, reproduces the register array: the
values loaded are the data, low 8 bits, of the responses that the commands of DUMP append, after the one to RDALPHA. The
arrays are equal as lists where the dumped one is in canonical form (log entry 9). -/
def Obligations.LoadOfDumpReproducesTheArray : Prop :=
  ∀ s s' : State, s.Inv → s.inbox = [] → s'.inbox = [] →
    ∃ t u, Sys2Proof.core.run 16385 (s.present dumpCommands) = .next t ∧ t.regs = s.regs ∧
      let dumped := (t.pending.drop s.pending.length).tail.map (fun r => r.data.setWidth 8)
      dumped.length = 16384 ∧
      Sys2Proof.core.run 16385 (s'.present (loadCommands dumped)) = .next u ∧ u.regs = s.regs

/-! ### Binary64 -/

/-- R11: the four operations on finite operands give the exact result rounded once, to nearest with ties to even. That a
result of `2^1024 - 2^970` or more in magnitude is an infinity is IEEE 754's rule, which R11 names and does not restate
(PRESUMED, log entry 8). The sign of a zero result stands in NaNAndInfinityFollowIeee. -/
def Obligations.OperationsRoundOnceToNearestEven : Prop :=
  ∀ a b : F64, F64.isFinite a = true → F64.isFinite b = true →
    F64.Rounded (F64.toRat a + F64.toRat b) (F64.fadd a b) ∧
    F64.Rounded (F64.toRat a - F64.toRat b) (F64.fsub a b) ∧
    F64.Rounded (F64.toRat a * F64.toRat b) (F64.fmul a b) ∧
    (F64.toRat b ≠ 0 → F64.Rounded (F64.toRat a / F64.toRat b) (F64.fdiv a b))

/-- What R11, R113 and R120 leave to IEEE 754 without restating it, as the model takes it from the standard (PRESUMED, log
entry 8): NaN operands, the invalid operations, one or two infinite operands, division by zero, and the signs of zero
results, products and quotients. -/
def Obligations.NaNAndInfinityFollowIeee : Prop :=
  (∀ a b : F64, F64.isNaN a = true ∨ F64.isNaN b = true →
    F64.isNaN (F64.fadd a b) = true ∧ F64.isNaN (F64.fsub a b) = true ∧ F64.isNaN (F64.fmul a b) = true ∧
    F64.isNaN (F64.fdiv a b) = true) ∧
  (∀ n n' : Bool,
    F64.isNaN (F64.fadd (F64.infinity n) (F64.infinity !n)) = true ∧
    F64.isNaN (F64.fsub (F64.infinity n) (F64.infinity n)) = true ∧
    F64.isNaN (F64.fdiv (F64.infinity n) (F64.infinity n')) = true ∧
    F64.fadd (F64.infinity n) (F64.infinity n) = F64.infinity n ∧
    F64.fsub (F64.infinity n) (F64.infinity !n) = F64.infinity n ∧
    F64.fmul (F64.infinity n) (F64.infinity n') = F64.infinity (n != n')) ∧
  (∀ (n : Bool) (x : F64), F64.isFinite x = true →
    F64.fadd (F64.infinity n) x = F64.infinity n ∧ F64.fadd x (F64.infinity n) = F64.infinity n ∧
    F64.fsub (F64.infinity n) x = F64.infinity n ∧ F64.fsub x (F64.infinity n) = F64.infinity !n ∧
    (F64.toRat x = 0 → F64.isNaN (F64.fmul (F64.infinity n) x) = true ∧
      F64.isNaN (F64.fmul x (F64.infinity n)) = true) ∧
    (F64.toRat x ≠ 0 → F64.fmul (F64.infinity n) x = F64.infinity (n != F64.sign x) ∧
      F64.fmul x (F64.infinity n) = F64.infinity (F64.sign x != n)) ∧
    F64.fdiv (F64.infinity n) x = F64.infinity (n != F64.sign x) ∧
    F64.fdiv x (F64.infinity n) = F64.signedZero (F64.sign x != n)) ∧
  (∀ a b : F64, F64.isFinite a = true → F64.isFinite b = true →
    (F64.toRat b = 0 → F64.toRat a = 0 → F64.isNaN (F64.fdiv a b) = true) ∧
    (F64.toRat b = 0 → F64.toRat a ≠ 0 → F64.fdiv a b = F64.infinity (F64.sign a != F64.sign b)) ∧
    (F64.toRat a + F64.toRat b = 0 → F64.fadd a b = F64.signedZero (F64.sign a && F64.sign b)) ∧
    (F64.toRat a - F64.toRat b = 0 → F64.fsub a b = F64.signedZero (F64.sign a && !F64.sign b)) ∧
    F64.sign (F64.fmul a b) = (F64.sign a != F64.sign b) ∧
    (F64.toRat b ≠ 0 → F64.sign (F64.fdiv a b) = (F64.sign a != F64.sign b)))

/-- R11: `u2f` is exact up to `2^53`, and `pow2neg(r)` is exactly `2^(-r)` for every 8-bit `r`. -/
def Obligations.ConversionsAreExact : Prop :=
  (∀ n ≤ 2 ^ 53, F64.isFinite (F64.u2f n) = true ∧ F64.toRat (F64.u2f n) = n) ∧
  ∀ r : RegValue, F64.isFinite (F64.pow2neg r) = true ∧ F64.toRat (F64.pow2neg r) = 1 / 2 ^ r.toNat

/-- R25, R26: `alpha` at the three special sizes and the constant ALPHA with the steps that lead to it. -/
def Obligations.AlphaHasItsValues : Prop :=
  alphaOf 16 = 0x3FE589374BC6A7F0 ∧ alphaOf 32 = 0x3FE64DD2F1A9FBE7 ∧ alphaOf 64 = 0x3FE6B020C49BA5E3 ∧
  F64.lit false 7213 4 = 0x3FE714E3BCD35A86 ∧ F64.lit false 1079 3 = 0x3FF14395810624DD ∧
  F64.fdiv 0x3FF14395810624DD (F64.u2f 16384) = 0x3F114395810624DD ∧
  F64.fadd F64.one 0x3F114395810624DD = 0x3FF000450E560419 ∧
  F64.fdiv 0x3FE714E3BCD35A86 0x3FF000450E560419 = ALPHA ∧
  alphaOf 16384 = ALPHA ∧ ALPHA = 0x3FE714801FBCCD72

/-- R104: each coefficient is the binary64 nearest to its decimal literal, ties to even. -/
def Obligations.CoefficientsAreNearestToTheirLiterals : Prop :=
  F64.NearestEven (-370393911 / 10 ^ 9) C1 ∧ F64.NearestEven (70471823 / 10 ^ 9) C2 ∧
  F64.NearestEven (17393686 / 10 ^ 8) C3 ∧ F64.NearestEven (16339839 / 10 ^ 8) C4 ∧
  F64.NearestEven (-9237745 / 10 ^ 8) C5 ∧ F64.NearestEven (3738027 / 10 ^ 8) C6 ∧
  F64.NearestEven (-5384159 / 10 ^ 9) C7 ∧ F64.NearestEven (42419 / 10 ^ 8) C8

/-! ### The logarithm and the estimate -/

/-- R107, P1 and P2: `LN64(1.0) = +0.0`, and at 2 to 16385 `LN64` is one of the two binary64 values that bracket the real
logarithm. It holds whichever of the two the free value of Config chooses (log entry 5). -/
def Obligations.LogarithmIsExactAtOneAndFaithful : Prop :=
  ln64 F64.one = F64.plusZero ∧
  ∀ n : Nat, 2 ≤ n → n ≤ 16385 → ∃ lo hi : F64,
    F64.isFinite lo = true ∧ F64.isFinite hi = true ∧
    (F64.toRat lo : ℝ) < Real.log n ∧ Real.log n < (F64.toRat hi : ℝ) ∧
    (∀ y : F64, F64.isFinite y = true → F64.toRat y ≤ F64.toRat lo ∨ F64.toRat hi ≤ F64.toRat y) ∧
    (ln64 (F64.u2f n) = lo ∨ ln64 (F64.u2f n) = hi)

/-- R107: the default instantiation `LN64_CR` is the binary64 nearest to the real logarithm at 1 to 16385. -/
def Obligations.DefaultLogarithmIsCorrectlyRounded : Prop :=
  ∀ n : Nat, 1 ≤ n → n ≤ 16385 → F64.isFinite (ln64CR (F64.u2f n)) = true ∧
    ∀ y : F64, F64.isFinite y = true →
      |(F64.toRat (ln64CR (F64.u2f n)) : ℝ) - Real.log n| ≤ |(F64.toRat y : ℝ) - Real.log n|

/-- R102: when no register exceeds 39, the sum is the exact real sum, and any other order of the additions and any tree of
adders over the 16384 terms gives the same bits. -/
def Obligations.SumIsExactInAnyOrderUpToThirtyNine : Prop :=
  ∀ s : State, (∀ i : Index, (s.reg i).toNat ≤ 39) →
    (∀ order : List Nat, order.Perm (List.range 16384) →
      order.foldl (fun acc i => F64.fadd acc (F64.pow2neg (s.regs.read i))) F64.plusZero =
        harmonicSum s.regs.read) ∧
    (∀ tree : AdderTree, tree.indices.Perm (List.range 16384) → tree.sum s.regs.read = harmonicSum s.regs.read) ∧
    F64.toRat (harmonicSum s.regs.read) = ((List.range 16384).map (fun i => (1 : ℚ) / 2 ^ (s.regs.read i).toNat)).sum

/-- R110 (a): with no zero register `beta` is exactly `+0.0`, though its first product is `-0.0`. -/
def Obligations.BetaIsPlusZeroWithoutZeroRegisters : Prop :=
  F64.fmul C1 (F64.u2f 0) = 0x8000000000000000 ∧ beta ln64 0 = F64.plusZero

/-- R117: ESTIMATE is deterministic given the registers, and two in a row answer the same. -/
def Obligations.EstimateIsAFunctionOfTheRegisters : Prop :=
  ∀ s s' : State, (∀ i : Index, s.reg i = s'.reg i) → ∃ r : Response,
    exec .estimate s = .next { s with pending := s.pending ++ [r] } ∧
    exec .estimate s' = .next { s' with pending := s'.pending ++ [r] } ∧
    exec .estimate { s with pending := s.pending ++ [r] } = .next { s with pending := s.pending ++ [r] ++ [r] }

/-- R119 (a), R171: the empty sketch estimates 0 with status OK, whichever neighbour of the real logarithm `LN64` returns
(R107 P2, log entry 5). -/
def Obligations.EmptySketchEstimatesZero : Prop :=
  ∀ s : State, (∀ i : Index, s.reg i = 0) →
    exec .estimate s = .next { s with pending := s.pending ++ [⟨.ok, 0⟩] }

/-- R119 (d), (e), (f), R118's example and vectors E7 to E14: states in which every register holds one value. -/
def Obligations.UniformSketchesHaveTheirEstimates : Prop :=
  ∀ s : State, ∃ r : Response, exec .estimate s = .next { s with pending := s.pending ++ [r] } ∧
    ((∀ i : Index, s.reg i = 1) → r = ⟨.ok, 23634⟩) ∧
    ((∀ i : Index, s.reg i = 26) → r = ⟨.ok, 793025510886⟩) ∧
    ((∀ i : Index, s.reg i = 37) → r = ⟨.ok, 1624116246295388⟩) ∧
    ((∀ i : Index, s.reg i = 50) → r = ⟨.ok, 13304760289651822592⟩) ∧
    ((∀ i : Index, s.reg i = 51) → r = ⟨.estOor, 0xFFFFFFFFFFFFFFFF⟩) ∧
    ((∀ i : Index, s.reg i = 255) → r = ⟨.estOor, 0xFFFFFFFFFFFFFFFF⟩)

/-- R119 (b): exactly one non-zero register, whatever its index and value, estimates 0. R119 says it of `LN64_CR`; that it
holds for either neighbour of the real logarithm is the model's wider claim from R107 P2 (log entry 5). -/
def Obligations.OneNonzeroRegisterEstimatesZero : Prop :=
  ∀ (s : State) (i : Index), s.reg i ≠ 0 → (∀ j : Index, j ≠ i → s.reg j = 0) →
    exec .estimate s = .next { s with pending := s.pending ++ [⟨.ok, 0⟩] }

/-- R119 (c): exactly two non-zero registers, whatever their indices and values, estimate 1. R119 says it of `LN64_CR`; that it
holds for either neighbour of the real logarithm is the model's wider claim from R107 P2 (log entry 5). -/
def Obligations.TwoNonzeroRegistersEstimateOne : Prop :=
  ∀ (s : State) (i j : Index), i ≠ j → s.reg i ≠ 0 → s.reg j ≠ 0 → (∀ k : Index, k ≠ i → k ≠ j → s.reg k = 0) →
    exec .estimate s = .next { s with pending := s.pending ++ [⟨.ok, 1⟩] }

/-- R116, R115: ESTIMATE is out of range only if every register is 37 or more, and then only upward: the data is
`2^64 - 1`. R116 says it of `LN64_CR` (R110 b); that it holds for either neighbour of the real logarithm is the model's
wider claim from R107 P2 (log entry 5). -/
def Obligations.OutOfRangeOnlyIfEveryRegisterIsLarge : Prop :=
  ∀ (s : State) (d : Word64),
    exec .estimate s = .next { s with pending := s.pending ++ [⟨.estOor, d⟩] } →
      (∀ i : Index, 37 ≤ (s.reg i).toNat) ∧ d = 0xFFFFFFFFFFFFFFFF
end

