-- ==== Sys2Proof/Laws/Encoding.lean ====
section
/-! SUPPORT. The fields of an encoded word, and that a word is its opcode and its operand. -/

namespace Sys2Proof

@[simp] theorem opcodeOf_append (op : BitVec 8) (x : Word64) : opcodeOf (op ++ x) = op := by
  apply BitVec.eq_of_toNat_eq
  simp only [opcodeOf, BitVec.extractLsb'_toNat, BitVec.toNat_append, Nat.shiftRight_eq_div_pow, Nat.shiftLeft_eq]
  have := x.isLt; have := op.isLt
  rw [← Nat.shiftLeft_eq, ← Nat.shiftLeft_add_eq_or_of_lt x.isLt, Nat.shiftLeft_eq]
  omega

@[simp] theorem operandOf_append (op : BitVec 8) (x : Word64) : operandOf (op ++ x) = x := by
  apply BitVec.eq_of_toNat_eq
  simp only [operandOf, BitVec.extractLsb'_toNat, BitVec.toNat_append, Nat.shiftRight_zero]
  rw [← Nat.shiftLeft_add_eq_or_of_lt x.isLt, Nat.shiftLeft_eq]
  have := x.isLt; omega

/-- A command word is its opcode and its operand (R61). -/
theorem opcode_append_operand (w : PortWord) : opcodeOf w ++ operandOf w = w := by
  apply BitVec.eq_of_toNat_eq
  simp only [opcodeOf, operandOf, BitVec.toNat_append, BitVec.extractLsb'_toNat, Nat.shiftRight_eq_div_pow]
  rw [← Nat.shiftLeft_add_eq_or_of_lt (by omega), Nat.shiftLeft_eq]
  have := w.isLt; omega

@[simp] theorem opcodeOf_encode (i : Instr) : opcodeOf (encode i) = i.opcode := opcodeOf_append _ _

@[simp] theorem operandOf_encode (i : Instr) : operandOf (encode i) = i.operand := operandOf_append _ _

/-- Format I in numbers. -/
theorem operand_rdreg_toNat (index : Index) : (Instr.rdreg index).operand.toNat = index.toNat := by
  refine (BitVec.toNat_append (0#50) index).trans ?_
  simp

/-- Format U in numbers. -/
theorem operand_update_toNat (index : Index) (value : RegValue) :
    (Instr.update index value).operand.toNat = value.toNat * 65536 + index.toNat := by
  refine (BitVec.toNat_append (0#40 ++ value ++ 0#2) index).trans ?_
  rw [← Nat.shiftLeft_add_eq_or_of_lt index.isLt, BitVec.toNat_append, BitVec.toNat_append]
  simp only [BitVec.toNat_ofNat, Nat.zero_mod, Nat.zero_mul, Nat.zero_or, Nat.or_zero, Nat.shiftLeft_eq]
  omega

end Sys2Proof
end

