-- ==== Sys2Proof/Laws/Float.lean ====
section
/-! SUPPORT. The laws of rounding. The magnitude of a pattern is a strictly increasing function `lowUnits` of its lower 63
bits, and `roundLow` picks one of the two neighbours of the exact ratio: the nearest, ties to even. Exactness and
monotonicity of every operation follow from that one lemma. -/

namespace Sys2Proof.Machine.F64

/-! ### The logarithm by halving -/

theorem shed_eq (k n : Nat) : floorLog2.shed k n = Nat.log2 n := by
  induction k generalizing n with
  | zero => rfl
  | succ k ih =>
    unfold floorLog2.shed
    split
    · exact ih n
    · rename_i q hq'
      rw [ih]
      have hq : n / 2 ^ 2 ^ k ≠ 0 := by omega
      have hn : n ≠ 0 := by rintro rfl; simp at hq
      rw [← Nat.succ_eq_add_one, ← hq', eq_comm, Nat.log2_eq_iff hn]
      have h1 := Nat.log2_self_le hq
      have h2 : n / 2 ^ 2 ^ k < 2 ^ (Nat.log2 (n / 2 ^ 2 ^ k) + 1) := Nat.lt_log2_self
      constructor
      · rw [pow_add, Nat.mul_comm]
        exact (Nat.le_div_iff_mul_le (Nat.two_pow_pos _)).1 h1
      · rw [Nat.add_assoc, pow_add, Nat.mul_comm]
        exact (Nat.div_lt_iff_lt_mul (Nat.two_pow_pos _)).1 h2

/-- Halving the distance computes `Nat.log2`. -/
theorem floorLog2_eq (n : Nat) : floorLog2 n = Nat.log2 n := shed_eq 12 n

/-! ### The magnitude of a pattern -/

/-- The magnitude, in units of `2^-1074`, of the pattern whose lower 63 bits are `low`. -/
def lowUnits (low : Nat) : Nat :=
  if low / 2 ^ 52 = 0 then low % 2 ^ 52 else (2 ^ 52 + low % 2 ^ 52) * 2 ^ (low / 2 ^ 52 - 1)

theorem lowUnits_of_small {m : Nat} (h : m < 2 ^ 52) : lowUnits m = m := by
  unfold lowUnits
  rw [if_pos (by omega)]; omega

theorem lowUnits_of_normal {shift m : Nat} (h1 : 2 ^ 52 ≤ m) (h2 : m ≤ 2 ^ 53) :
    lowUnits (shift * 2 ^ 52 + m) = m * 2 ^ shift := by
  unfold lowUnits
  rcases Nat.lt_or_eq_of_le h2 with h | h
  · have hd : (shift * 2 ^ 52 + m) / 2 ^ 52 = shift + 1 := by omega
    have hm : (shift * 2 ^ 52 + m) % 2 ^ 52 = m - 2 ^ 52 := by omega
    rw [hd, hm, if_neg (by omega), Nat.add_sub_cancel, Nat.add_sub_cancel' h1]
  · subst h
    have hd : (shift * 2 ^ 52 + 2 ^ 53) / 2 ^ 52 = shift + 2 := by omega
    have hm : (shift * 2 ^ 52 + 2 ^ 53) % 2 ^ 52 = 0 := by omega
    rw [hd, hm, if_neg (by omega), Nat.add_zero, show shift + 2 - 1 = shift + 1 from rfl, pow_succ 2 shift]
    ring

/-- A significand at its quantum. -/
theorem lowUnits_grid {shift m : Nat} (h1 : shift = 0 ∨ 2 ^ 52 ≤ m) (h2 : m ≤ 2 ^ 53) :
    lowUnits (shift * 2 ^ 52 + m) = m * 2 ^ shift := by
  by_cases h : 2 ^ 52 ≤ m
  · exact lowUnits_of_normal h h2
  · have : shift = 0 := by omega
    subst this
    rw [Nat.zero_mul, Nat.zero_add, pow_zero, Nat.mul_one, lowUnits_of_small (by omega)]

theorem lowUnits_lt_succ (w : Nat) : lowUnits w < lowUnits (w + 1) := by
  by_cases h : w < 2 ^ 52
  · have h0 := lowUnits_grid (shift := 0) (m := w) (.inl rfl) (by omega)
    have h1 := lowUnits_grid (shift := 0) (m := w + 1) (.inl rfl) (by omega)
    simp only [Nat.zero_mul, Nat.zero_add, pow_zero, Nat.mul_one] at h0 h1
    omega
  · obtain ⟨shift, m, hw, hm1, hm2⟩ : ∃ shift m, w = shift * 2 ^ 52 + m ∧ 2 ^ 52 ≤ m ∧ m < 2 ^ 53 :=
      ⟨w / 2 ^ 52 - 1, 2 ^ 52 + w % 2 ^ 52, by omega, by omega, by omega⟩
    subst hw
    rw [lowUnits_of_normal hm1 (by omega), Nat.add_assoc, lowUnits_of_normal (by omega) (by omega)]
    exact Nat.mul_lt_mul_of_pos_right (Nat.lt_succ_self m) (Nat.two_pow_pos _)

theorem lowUnits_strictMono : StrictMono lowUnits := strictMono_nat_of_lt_succ lowUnits_lt_succ

/-! ### Rounding -/

/-- What `roundLow` computes: `base` and `base + 1` are the two neighbours of the ratio, and the answer is the nearer one,
the even one when they are equally near. -/
theorem roundLow_spec (num : Nat) {den : Nat} (hden : 0 < den) :
    ∃ base, lowUnits base * den ≤ num ∧ num < lowUnits (base + 1) * den ∧
      ((roundLow num den = base ∧ 2 * num ≤ (lowUnits base + lowUnits (base + 1)) * den) ∨
       (roundLow num den = base + 1 ∧ (lowUnits base + lowUnits (base + 1)) * den ≤ 2 * num)) ∧
      (2 * num = (lowUnits base + lowUnits (base + 1)) * den → roundLow num den % 2 = 0) := by
  obtain ⟨shift, hshift⟩ : ∃ shift, shift = floorLog2 (num / den) - 52 := ⟨_, rfl⟩
  obtain ⟨m, hm⟩ : ∃ m, m = num / (den * 2 ^ shift) := ⟨_, rfl⟩
  obtain ⟨r, hr⟩ : ∃ r, r = num % (den * 2 ^ shift) := ⟨_, rfl⟩
  have hq : 0 < den * 2 ^ shift := Nat.mul_pos hden (Nat.two_pow_pos _)
  have hnum : num = m * (den * 2 ^ shift) + r := by rw [hm, hr, Nat.mul_comm]; exact (Nat.div_add_mod _ _).symm
  have hrlt : r < den * 2 ^ shift := hr ▸ Nat.mod_lt _ hq
  have hmdiv : m = num / den / 2 ^ shift := by rw [hm, Nat.div_div_eq_div_mul]
  have hrange : (shift = 0 ∨ 2 ^ 52 ≤ m) ∧ m < 2 ^ 53 := by
    rw [floorLog2_eq] at hshift
    by_cases h0 : num / den = 0
    · rw [h0] at hmdiv hshift
      exact ⟨.inl (by rw [hshift]; simp), by rw [hmdiv]; simp⟩
    · have h1 := Nat.log2_self_le h0
      have h2 : num / den < 2 ^ (Nat.log2 (num / den) + 1) := Nat.lt_log2_self
      by_cases hs : shift = 0
      · refine ⟨.inl hs, ?_⟩
        rw [hmdiv, hs, pow_zero, Nat.div_one]
        exact h2.trans_le (Nat.pow_le_pow_right (by omega) (by omega))
      · have hl : Nat.log2 (num / den) = shift + 52 := by omega
        rw [hl] at h1 h2
        refine ⟨.inr ?_, ?_⟩
        · rw [hmdiv, Nat.le_div_iff_mul_le (Nat.two_pow_pos _), ← pow_add, Nat.add_comm]; exact h1
        · rw [hmdiv, Nat.div_lt_iff_lt_mul (Nat.two_pow_pos _), ← pow_add, show 53 + shift = shift + 52 + 1 by omega]
          exact h2
  have hb : lowUnits (shift * 2 ^ 52 + m) = m * 2 ^ shift := lowUnits_grid hrange.1 (by omega)
  have hb1 : lowUnits (shift * 2 ^ 52 + m + 1) = (m + 1) * 2 ^ shift := by
    rw [Nat.add_assoc]
    exact lowUnits_grid (by omega) (by omega)
  have e1 : lowUnits (shift * 2 ^ 52 + m) * den = m * (den * 2 ^ shift) := by rw [hb]; ring
  have e2 : lowUnits (shift * 2 ^ 52 + m + 1) * den = m * (den * 2 ^ shift) + den * 2 ^ shift := by rw [hb1]; ring
  have e3 : (lowUnits (shift * 2 ^ 52 + m) + lowUnits (shift * 2 ^ 52 + m + 1)) * den =
      2 * (m * (den * 2 ^ shift)) + den * 2 ^ shift := by rw [Nat.add_mul, e1, e2]; ring
  have hround : roundLow num den = shift * 2 ^ 52 + m +
      (if den * 2 ^ shift < 2 * r ∨ (den * 2 ^ shift = 2 * r ∧ m % 2 = 1) then 1 else 0) := by
    unfold roundLow; dsimp only; rw [← hshift, ← hm, ← hr]
  refine ⟨shift * 2 ^ 52 + m, by omega, by omega, ?_, ?_⟩
  · rw [hround, e3]
    split
    · exact .inr ⟨rfl, by omega⟩
    · exact .inl ⟨Nat.add_zero _, by omega⟩
  · rw [hround, e3]
    intro ht
    split <;> omega

/-- A ratio that is the magnitude of a pattern rounds to that pattern. -/
theorem roundLow_exact {num den w : Nat} (hden : 0 < den) (h : num = lowUnits w * den) : roundLow num den = w := by
  obtain ⟨base, h1, h2, h3, -⟩ := roundLow_spec num hden
  subst h
  have hw : base = w := by
    have a1 : lowUnits base ≤ lowUnits w := Nat.le_of_mul_le_mul_right h1 hden
    have a2 : lowUnits w < lowUnits (base + 1) := Nat.lt_of_mul_lt_mul_right h2
    have := lowUnits_strictMono.le_iff_le.1 a1
    have := lowUnits_strictMono.lt_iff_lt.1 a2
    omega
  subst hw
  rcases h3 with ⟨h, -⟩ | ⟨-, h⟩
  · exact h
  · rw [Nat.add_mul] at h; omega

/-- Rounding is monotone. -/
theorem roundLow_mono {n₁ d₁ n₂ d₂ : Nat} (h₁ : 0 < d₁) (h₂ : 0 < d₂) (h : n₁ * d₂ ≤ n₂ * d₁) :
    roundLow n₁ d₁ ≤ roundLow n₂ d₂ := by
  obtain ⟨b₁, a1, a2, a3, a4⟩ := roundLow_spec n₁ h₁
  obtain ⟨b₂, c1, c2, c3, c4⟩ := roundLow_spec n₂ h₂
  have hb : b₁ ≤ b₂ := by
    have : lowUnits b₁ * (d₁ * d₂) < lowUnits (b₂ + 1) * (d₁ * d₂) :=
      calc lowUnits b₁ * (d₁ * d₂) = lowUnits b₁ * d₁ * d₂ := by ring
        _ ≤ n₁ * d₂ := Nat.mul_le_mul_right _ a1
        _ ≤ n₂ * d₁ := h
        _ < lowUnits (b₂ + 1) * d₂ * d₁ := Nat.mul_lt_mul_of_pos_right c2 h₁
        _ = _ := by ring
    have := lowUnits_strictMono.lt_iff_lt.1 (Nat.lt_of_mul_lt_mul_right this)
    omega
  rcases Nat.lt_or_eq_of_le hb with hlt | rfl
  · omega
  · rcases a3 with ⟨e1, -⟩ | ⟨e1, f1⟩
    · omega
    · rcases c3 with ⟨e2, f2⟩ | ⟨e2, -⟩
      · exfalso
        have g1 : (lowUnits b₁ + lowUnits (b₁ + 1)) * d₁ * d₂ ≤ 2 * n₁ * d₂ := Nat.mul_le_mul_right _ f1
        have g2 : 2 * n₂ * d₁ ≤ (lowUnits b₁ + lowUnits (b₁ + 1)) * d₂ * d₁ := Nat.mul_le_mul_right _ f2
        have g3 : (lowUnits b₁ + lowUnits (b₁ + 1)) * d₁ * d₂ = (lowUnits b₁ + lowUnits (b₁ + 1)) * d₂ * d₁ := by ring
        have g4 : 2 * n₁ * d₂ ≤ 2 * n₂ * d₁ := by nlinarith
        have t1 : 2 * n₁ = (lowUnits b₁ + lowUnits (b₁ + 1)) * d₁ :=
          Nat.eq_of_mul_eq_mul_right h₂ (by omega)
        have t2 : 2 * n₂ = (lowUnits b₁ + lowUnits (b₁ + 1)) * d₂ :=
          Nat.eq_of_mul_eq_mul_right h₁ (by omega)
        have := a4 t1; have := c4 t2; omega
      · omega

/-- A number of units below `2^53` quanta is the magnitude of a pattern. -/
theorem lowUnits_surj_lt {m e : Nat} (hm : m < 2 ^ 53) : ∃ w, lowUnits w = m * 2 ^ e := by
  by_cases h0 : m * 2 ^ e < 2 ^ 53
  · refine ⟨m * 2 ^ e, ?_⟩
    have := lowUnits_grid (shift := 0) (m := m * 2 ^ e) (.inl rfl) (by omega)
    simpa using this
  · have hn : m * 2 ^ e ≠ 0 := by omega
    obtain ⟨l, hl⟩ : ∃ l, l = Nat.log2 (m * 2 ^ e) := ⟨_, rfl⟩
    have h1 : 2 ^ l ≤ m * 2 ^ e := hl ▸ Nat.log2_self_le hn
    have h2 : m * 2 ^ e < 2 ^ (l + 1) := hl ▸ Nat.lt_log2_self
    have hl53 : 53 ≤ l := by
      by_contra hc
      have : 2 ^ (l + 1) ≤ 2 ^ 53 := Nat.pow_le_pow_right (by omega) (by omega)
      omega
    have hle : l - 52 ≤ e := by
      by_contra hc
      have hlt : m * 2 ^ e < 2 ^ (53 + e) := by
        rw [pow_add]; exact Nat.mul_lt_mul_of_pos_right hm (Nat.two_pow_pos _)
      have : 2 ^ (53 + e) ≤ 2 ^ l := Nat.pow_le_pow_right (by omega) (by omega)
      omega
    obtain ⟨x, rfl⟩ : ∃ x, e = (l - 52) + x := ⟨e - (l - 52), by omega⟩
    have hsplit : m * 2 ^ (l - 52 + x) = m * 2 ^ x * 2 ^ (l - 52) := by rw [pow_add]; ring
    have hlow : 2 ^ 52 ≤ m * 2 ^ x := by
      rw [hsplit, show l = 52 + (l - 52) by omega, pow_add, show 52 + (l - 52) - 52 = l - 52 by omega] at h1
      exact Nat.le_of_mul_le_mul_right h1 (Nat.two_pow_pos _)
    have hhigh : m * 2 ^ x < 2 ^ 53 := by
      rw [hsplit, show l + 1 = 53 + (l - 52) by omega, pow_add] at h2
      exact Nat.lt_of_mul_lt_mul_right h2
    exact ⟨(l - 52) * 2 ^ 52 + m * 2 ^ x, by rw [lowUnits_of_normal hlow (by omega), hsplit]⟩

/-- A number of units with at most 53 significant bits is the magnitude of a pattern. -/
theorem lowUnits_surj {m e : Nat} (hm : m ≤ 2 ^ 53) : ∃ w, lowUnits w = m * 2 ^ e := by
  rcases Nat.lt_or_eq_of_le hm with h | rfl
  · exact lowUnits_surj_lt h
  · obtain ⟨w, hw⟩ := lowUnits_surj_lt (m := 2 ^ 52) (e := e + 1) (by omega)
    exact ⟨w, by rw [hw, pow_succ 2 e]; ring⟩

end Sys2Proof.Machine.F64
end

