-- ==== Sys2Proof/Laws/FloatOps.lean ====
section
/-! SUPPORT. Patterns and their parts, and what the operations give on finite operands. -/

namespace Sys2Proof.Machine.F64

/-- The lower 63 bits of a pattern. -/
def low (x : F64) : Nat := x.toNat % 2 ^ 63

theorem low_lt (x : F64) : low x < 2 ^ 63 := Nat.mod_lt _ (by decide)

theorem expField_eq (x : F64) : expField x = low x / 2 ^ 52 := by unfold expField low; omega

theorem fraction_eq (x : F64) : fraction x = low x % 2 ^ 52 := by unfold fraction low; omega

theorem magnitude_eq (x : F64) : magnitude x = lowUnits (low x) := by
  unfold magnitude lowUnits
  rw [expField_eq, fraction_eq]

theorem isFinite_iff (x : F64) : isFinite x = true ↔ low x < 2047 * 2 ^ 52 := by
  unfold isFinite
  have := low_lt x
  rw [expField_eq, bne_iff_ne]; omega

theorem isNaN_of_isFinite {x : F64} (h : isFinite x = true) : isNaN x = false := by
  unfold isFinite at h; unfold isNaN
  rw [bne_iff_ne] at h
  simp [h]

theorem isInf_of_isFinite {x : F64} (h : isFinite x = true) : isInf x = false := by
  unfold isFinite at h; unfold isInf
  rw [bne_iff_ne] at h
  simp [h]

theorem sign_eq (x : F64) : sign x = decide (2 ^ 63 ≤ x.toNat) := by
  have := x.isLt
  rw [sign, BitVec.getLsbD, Nat.testBit_eq_decide_div_mod_eq]
  congr 1; rw [eq_iff_iff]; omega

theorem toNat_eq (x : F64) : x.toNat = (if sign x then 2 ^ 63 else 0) + low x := by
  have := x.isLt
  rw [sign_eq]; unfold low
  split <;> rename_i h <;> simp only [decide_eq_true_eq] at h <;> omega

/-- A pattern is its sign and its lower 63 bits. -/
theorem ext_sign_low {x y : F64} (hs : sign x = sign y) (hl : low x = low y) : x = y := by
  apply BitVec.eq_of_toNat_eq; rw [toNat_eq, toNat_eq, hs, hl]

/-- Two patterns of one sign and one magnitude are equal. -/
theorem ext_sign_magnitude {x y : F64} (hs : sign x = sign y) (hm : magnitude x = magnitude y) : x = y := by
  rw [magnitude_eq, magnitude_eq] at hm
  exact ext_sign_low hs (lowUnits_strictMono.injective hm)

section
variable {neg : Bool} {l : Nat} (hl : l < 2 ^ 63)
include hl

theorem toNat_ofSignMag : (ofSignMag neg l).toNat = (if neg then 2 ^ 63 else 0) + l := by
  rw [ofSignMag, BitVec.toNat_ofNat]
  split <;> omega

theorem sign_ofSignMag : sign (ofSignMag neg l) = neg := by
  rw [sign_eq, toNat_ofSignMag hl]
  cases neg
  · simp; omega
  · simp

theorem low_ofSignMag : low (ofSignMag neg l) = l := by
  rw [low, toNat_ofSignMag hl]
  split <;> omega

end

/-! ### Rounded results -/

section
variable {neg : Bool} {num den : Nat} (h : roundLow num den < 2047 * 2 ^ 52)
include h

theorem roundRatio_eq : roundRatio neg num den = ofSignMag neg (roundLow num den) := by rw [roundRatio, if_pos h]

theorem sign_roundRatio : sign (roundRatio neg num den) = neg := by
  rw [roundRatio_eq h]; exact sign_ofSignMag (by omega)

theorem low_roundRatio : low (roundRatio neg num den) = roundLow num den := by
  rw [roundRatio_eq h]; exact low_ofSignMag (by omega)

theorem isFinite_roundRatio : isFinite (roundRatio neg num den) = true := by
  rw [isFinite_iff, low_roundRatio h]; exact h

theorem magnitude_roundRatio : magnitude (roundRatio neg num den) = lowUnits (roundLow num den) := by
  rw [magnitude_eq, low_roundRatio h]

end

/-- The magnitude of a finite pattern rounds to the pattern's own lower bits. -/
theorem roundLow_magnitude (x : F64) : roundLow (magnitude x) 1 = low x :=
  roundLow_exact Nat.one_pos (by rw [magnitude_eq, Nat.mul_one])

/-- Below a finite pattern's magnitude nothing overflows. -/
theorem roundLow_lt_of_le {x : F64} (hx : isFinite x = true) {num den : Nat} (hden : 0 < den)
    (h : num ≤ magnitude x * den) : roundLow num den < 2047 * 2 ^ 52 := by
  have := roundLow_mono hden Nat.one_pos (n₁ := num) (n₂ := magnitude x) (d₂ := 1) (by omega)
  rw [roundLow_magnitude] at this
  exact this.trans_lt ((isFinite_iff x).1 hx)

/-- Rounding a ratio not above a finite pattern's magnitude gives no more than that magnitude. -/
theorem magnitude_roundRatio_le {x : F64} (hx : isFinite x = true) {neg : Bool} {num den : Nat} (hden : 0 < den)
    (h : num ≤ magnitude x * den) : magnitude (roundRatio neg num den) ≤ magnitude x := by
  rw [magnitude_roundRatio (roundLow_lt_of_le hx hden h), magnitude_eq]
  refine lowUnits_strictMono.monotone ?_
  have := roundLow_mono hden Nat.one_pos (n₁ := num) (n₂ := magnitude x) (d₂ := 1) (by omega)
  rwa [roundLow_magnitude] at this

/-- Rounding a ratio not below a pattern's magnitude gives no less than that magnitude. -/
theorem le_magnitude_roundRatio {x : F64} {neg : Bool} {num den : Nat} (hden : 0 < den)
    (hfin : roundLow num den < 2047 * 2 ^ 52) (h : magnitude x * den ≤ num) :
    magnitude x ≤ magnitude (roundRatio neg num den) := by
  rw [magnitude_roundRatio hfin, magnitude_eq]
  refine lowUnits_strictMono.monotone ?_
  have := roundLow_mono Nat.one_pos hden (n₁ := magnitude x) (d₁ := 1) (n₂ := num) (by omega)
  rwa [roundLow_magnitude] at this

/-- A whole number of units with at most 53 significant bits is rounded to itself. -/
theorem magnitude_roundRatio_exact {neg : Bool} {m e den : Nat} (hm : m ≤ 2 ^ 53) (he : e ≤ 2044) (hden : 0 < den) :
    roundLow (m * 2 ^ e * den) den < 2047 * 2 ^ 52 ∧ magnitude (roundRatio neg (m * 2 ^ e * den) den) = m * 2 ^ e := by
  obtain ⟨w, hw⟩ := lowUnits_surj (e := e) hm
  have hr : roundLow (m * 2 ^ e * den) den = w := roundLow_exact hden (by rw [hw])
  have hlt : w < 2047 * 2 ^ 52 := by
    refine lowUnits_strictMono.lt_iff_lt.1 ?_
    have htop : lowUnits (2047 * 2 ^ 52) = 2 ^ 52 * 2 ^ 2046 := by
      have := lowUnits_of_normal (shift := 2046) (m := 2 ^ 52) (Nat.le_refl _) (by omega)
      rwa [show 2046 * 2 ^ 52 + 2 ^ 52 = 2047 * 2 ^ 52 by omega] at this
    rw [hw, htop]
    calc m * 2 ^ e ≤ 2 ^ 53 * 2 ^ e := Nat.mul_le_mul_right _ hm
      _ ≤ 2 ^ 53 * 2 ^ 2044 := Nat.mul_le_mul_left _ (Nat.pow_le_pow_right (by omega) he)
      _ < 2 ^ 52 * 2 ^ 2046 := by
        rw [show (2 : Nat) ^ 53 = 2 ^ 52 * 2 from rfl, show 2046 = 2044 + 2 from rfl, pow_add 2 2044 2]
        have := Nat.two_pow_pos 2044
        generalize (2 : Nat) ^ 2044 = x at *; omega
  rw [hr]
  exact ⟨hlt, by rw [magnitude_roundRatio (by rw [hr]; exact hlt), hr, hw]⟩

/-! ### Operations on finite operands -/

/-- The sum of two finite operands of sign `+`. -/
theorem fadd_nonneg {a b : F64} (ha : isFinite a = true) (hb : isFinite b = true) (sa : sign a = false)
    (sb : sign b = false) : fadd a b = roundRatio false (magnitude a + magnitude b) 1 := by
  unfold fadd
  rw [isNaN_of_isFinite ha, isNaN_of_isFinite hb, isInf_of_isFinite ha, isInf_of_isFinite hb]
  simp only [Bool.or_self, Bool.false_eq_true, if_false, units, sa, sb, Bool.and_self, ← Int.natCast_add,
    Int.natAbs_natCast]
  have : ¬ ((magnitude a + magnitude b : Nat) : Int) < 0 := by omega
  simp only [this, decide_false, ite_self]

/-- The sum of two finite operands of any sign. -/
theorem fadd_finite {a b : F64} (ha : isFinite a = true) (hb : isFinite b = true) :
    fadd a b = roundRatio (if units a + units b = 0 then sign a && sign b else decide (units a + units b < 0))
      (units a + units b).natAbs 1 := by
  unfold fadd
  rw [isNaN_of_isFinite ha, isNaN_of_isFinite hb, isInf_of_isFinite ha, isInf_of_isFinite hb]
  simp only [Bool.or_self, Bool.false_eq_true, if_false]

/-- The product of two finite operands. -/
theorem fmul_finite {a b : F64} (ha : isFinite a = true) (hb : isFinite b = true) :
    fmul a b = roundRatio (sign a != sign b) (magnitude a * magnitude b) (2 ^ 1074) := by
  unfold fmul
  rw [isNaN_of_isFinite ha, isNaN_of_isFinite hb, isInf_of_isFinite ha, isInf_of_isFinite hb]
  simp only [Bool.or_self, Bool.false_eq_true, if_false]

/-- The quotient of two finite operands, the divisor not zero. -/
theorem fdiv_finite {a b : F64} (ha : isFinite a = true) (hb : isFinite b = true) (h : magnitude b ≠ 0) :
    fdiv a b = roundRatio (sign a != sign b) (magnitude a * 2 ^ 1074) (magnitude b) := by
  unfold fdiv
  rw [isNaN_of_isFinite ha, isNaN_of_isFinite hb, isInf_of_isFinite ha, isInf_of_isFinite hb]
  simp [h]

/-! ### Infinities, zeros, NaN and the inverted sign -/

@[simp] theorem sign_infinity (n : Bool) : sign (infinity n) = n := by cases n <;> decide
@[simp] theorem isInf_infinity (n : Bool) : isInf (infinity n) = true := by cases n <;> decide
@[simp] theorem isNaN_infinity (n : Bool) : isNaN (infinity n) = false := by cases n <;> decide
@[simp] theorem isFinite_infinity (n : Bool) : isFinite (infinity n) = false := by cases n <;> decide
@[simp] theorem neg_infinity (n : Bool) : neg (infinity n) = infinity !n := by cases n <;> decide

/-- The free value is a NaN whatever its sign and payload (log entry 7). -/
@[simp] theorem isNaN_nan (op : Config.FloatOp) (a b : F64) : isNaN (nan op a b) = true := by
  have h : ∀ (s : BitVec 1) (p : BitVec 51), isNaN (s ++ 0xFFF#12 ++ p : BitVec 64) = true := by
    intro s p
    have hs := s.isLt
    have hp := p.isLt
    unfold isNaN expField fraction
    rw [BitVec.toNat_append, BitVec.toNat_append, ← Nat.shiftLeft_add_eq_or_of_lt hp,
      ← Nat.shiftLeft_add_eq_or_of_lt (BitVec.isLt _), Nat.shiftLeft_eq, Nat.shiftLeft_eq, Bool.and_eq_true, beq_iff_eq, bne_iff_ne]
    simp only [BitVec.toNat_ofNat]
    omega
  exact h _ _

@[simp] theorem sign_neg (x : F64) : sign (neg x) = !sign x := by
  unfold sign neg; rw [BitVec.getLsbD_xor]; simp

@[simp] theorem low_neg (x : F64) : low (neg x) = low x := by
  unfold low neg; rw [BitVec.toNat_xor, Nat.xor_mod_two_pow]; simp

@[simp] theorem magnitude_neg (x : F64) : magnitude (neg x) = magnitude x := by
  rw [magnitude_eq, magnitude_eq, low_neg]

@[simp] theorem isFinite_neg (x : F64) : isFinite (neg x) = isFinite x := by
  rw [Bool.eq_iff_iff, isFinite_iff, isFinite_iff, low_neg]

@[simp] theorem units_neg (x : F64) : units (neg x) = -units x := by
  unfold units; rw [sign_neg, magnitude_neg]; cases sign x <;> simp

theorem units_eq_zero {x : F64} : units x = 0 ↔ magnitude x = 0 := by unfold units; split <;> omega

theorem toRat_eq_zero {x : F64} : toRat x = 0 ↔ magnitude x = 0 := by
  rw [toRat, div_eq_zero_iff, or_iff_left (pow_ne_zero _ two_ne_zero), Int.cast_eq_zero, units_eq_zero]

theorem toRat_add_eq_zero {x y : F64} : toRat x + toRat y = 0 ↔ units x + units y = 0 := by
  rw [toRat, toRat, ← add_div, div_eq_zero_iff, or_iff_left (pow_ne_zero _ two_ne_zero), ← Int.cast_add,
    Int.cast_eq_zero]

/-- The difference of two finite operands is the sum with the second one's sign inverted. -/
theorem fsub_finite {a b : F64} (ha : isFinite a = true) (hb : isFinite b = true) : fsub a b = fadd a (neg b) := by
  unfold fsub
  rw [isNaN_of_isFinite ha, isNaN_of_isFinite hb, isInf_of_isFinite ha]
  simp only [Bool.or_self, Bool.false_and, Bool.false_eq_true, if_false]

theorem roundLow_zero {den : Nat} (hden : 0 < den) : roundLow 0 den = 0 :=
  roundLow_exact hden (by rw [lowUnits_of_small (by decide), Nat.zero_mul])

theorem roundRatio_zero (n : Bool) {den : Nat} (hden : 0 < den) : roundRatio n 0 den = signedZero n := by
  rw [roundRatio, roundLow_zero hden]; rfl

@[simp] theorem sign_roundRatio_any (n : Bool) (num den : Nat) : sign (roundRatio n num den) = n := by
  unfold roundRatio
  split
  · exact sign_ofSignMag (by omega)
  · exact sign_infinity n

/-! ### `pow2neg` and `u2f` -/

theorem toNat_pow2neg (r : RegValue) : (pow2neg r).toNat = (1023 - r.toNat) * 2 ^ 52 := by
  rw [pow2neg, BitVec.toNat_ofNat]
  exact Nat.mod_eq_of_lt (by omega)

@[simp] theorem sign_pow2neg (r : RegValue) : sign (pow2neg r) = false := by
  rw [sign_eq, toNat_pow2neg]; simp; omega

theorem low_pow2neg (r : RegValue) : low (pow2neg r) = (1023 - r.toNat) * 2 ^ 52 := by
  rw [low, toNat_pow2neg]; omega

@[simp] theorem isFinite_pow2neg (r : RegValue) : isFinite (pow2neg r) = true := by
  rw [isFinite_iff, low_pow2neg]; omega

/-- `pow2neg r` is exactly `2^(-r)`, in units of `2^-1074` (R11). -/
@[simp] theorem magnitude_pow2neg (r : RegValue) : magnitude (pow2neg r) = 2 ^ (1074 - r.toNat) := by
  have hr : r.toNat < 2 ^ 8 := r.isLt
  rw [magnitude_eq, low_pow2neg, show (1023 - r.toNat) * 2 ^ 52 = (1022 - r.toNat) * 2 ^ 52 + 2 ^ 52 by omega,
    lowUnits_of_normal (Nat.le_refl _) (by omega), ← pow_add]
  congr 1; omega

/-- `u2f n` is exact for `n ≤ 2^53` (R11). -/
theorem magnitude_u2f {n : Nat} (h : n ≤ 2 ^ 53) : magnitude (u2f n) = n * 2 ^ 1074 := by
  have := (magnitude_roundRatio_exact (neg := false) (e := 1074) h (by omega) Nat.one_pos).2
  rwa [Nat.mul_one] at this

theorem isFinite_u2f {n : Nat} (h : n ≤ 2 ^ 53) : isFinite (u2f n) = true := by
  have := (magnitude_roundRatio_exact (neg := false) (e := 1074) h (by omega) Nat.one_pos).1
  rw [Nat.mul_one] at this
  exact isFinite_roundRatio this

theorem sign_u2f {n : Nat} (h : n ≤ 2 ^ 53) : sign (u2f n) = false := by
  have := (magnitude_roundRatio_exact (neg := false) (e := 1074) h (by omega) Nat.one_pos).1
  rw [Nat.mul_one] at this
  exact sign_roundRatio this

end Sys2Proof.Machine.F64
end

