-- ==== Sys2Proof/Laws/Estimator.lean ====
section
/-! SUPPORT. The harmonic sum and the zero count: every partial sum is a finite number of sign `+` between the number of
zero registers and the number of registers (`41_estimator.md` rules R101, R116), and it is exact where the exact sums fit
53 bits (rule R102). -/

namespace Sys2Proof.Machine

open F64

theorem isFinite_plusZero : isFinite plusZero = true := by decide
theorem sign_plusZero : sign plusZero = false := by decide
theorem magnitude_plusZero : magnitude plusZero = 0 := by decide

theorem zerosBelow_le (f : Nat → RegValue) (k : Nat) : zerosBelow f k ≤ k := by
  induction k with
  | zero => exact Nat.le_refl 0
  | succ k ih => unfold zerosBelow; split <;> omega

theorem zeroCount_le (f : Nat → RegValue) : zeroCount f ≤ Config.numRegs := zerosBelow_le f _

/-- The estimate depends on the registers below 16384 alone. -/
theorem partialSum_congr {f g : Nat → RegValue} {k : Nat} (h : ∀ i < k, f i = g i) : partialSum f k = partialSum g k := by
  induction k with
  | zero => rfl
  | succ k ih =>
    unfold partialSum
    rw [ih fun i hi => h i (by omega), h k (by omega)]

theorem zerosBelow_congr {f g : Nat → RegValue} {k : Nat} (h : ∀ i < k, f i = g i) : zerosBelow f k = zerosBelow g k := by
  induction k with
  | zero => rfl
  | succ k ih =>
    unfold zerosBelow
    rw [ih fun i hi => h i (by omega), h k (by omega)]

theorem estimateWith_congr (ln : F64 → F64) {f g : Nat → RegValue} (h : ∀ i < Config.numRegs, f i = g i) :
    estimateWith ln f = estimateWith ln g := by
  unfold estimateWith zeroCount harmonicSum
  rw [partialSum_congr h, zerosBelow_congr h]

/-- A partial sum is finite, of sign `+`, at least the number of zero registers and at most the number of registers, both
as real numbers. -/
theorem partialSum_bounds (f : Nat → RegValue) {k : Nat} (hk : k ≤ Config.numRegs) :
    isFinite (partialSum f k) = true ∧ sign (partialSum f k) = false ∧
      zerosBelow f k * 2 ^ 1074 ≤ magnitude (partialSum f k) ∧ magnitude (partialSum f k) ≤ k * 2 ^ 1074 := by
  induction k with
  | zero => exact ⟨isFinite_plusZero, sign_plusZero, by rw [zerosBelow, Nat.zero_mul]; exact Nat.zero_le _,
      by rw [partialSum, magnitude_plusZero]; exact Nat.zero_le _⟩
  | succ k ih =>
    obtain ⟨h1, h2, h3, h4⟩ := ih (by omega)
    have hz := zerosBelow_le f k
    have hN : Config.numRegs = 16384 := rfl
    have hle : (2 : Nat) ^ (1074 - (f k).toNat) ≤ 2 ^ 1074 := Nat.pow_le_pow_right (by omega) (by omega)
    have hone : f k = 0 → (2 : Nat) ^ (1074 - (f k).toNat) = 2 ^ 1074 := by intro h; rw [h]; rfl
    unfold partialSum zerosBelow
    rw [fadd_nonneg h1 (isFinite_pow2neg _) h2 (sign_pow2neg _), magnitude_pow2neg]
    have htop : magnitude (u2f (k + 1)) = (k + 1) * 2 ^ 1074 := magnitude_u2f (by omega)
    have hbot : magnitude (u2f (zerosBelow f k + if f k = 0 then 1 else 0)) =
        (zerosBelow f k + if f k = 0 then 1 else 0) * 2 ^ 1074 := magnitude_u2f (by split <;> omega)
    have hup : magnitude (partialSum f k) + 2 ^ (1074 - (f k).toNat) ≤ magnitude (u2f (k + 1)) * 1 := by
      rw [htop]; generalize (2 : Nat) ^ 1074 = x at *; rw [Nat.add_mul]; omega
    have hlow : magnitude (u2f (zerosBelow f k + if f k = 0 then 1 else 0)) * 1 ≤
        magnitude (partialSum f k) + 2 ^ (1074 - (f k).toNat) := by
      rw [hbot]; generalize (2 : Nat) ^ 1074 = x at *
      split
      · rename_i h; have := hone h; rw [Nat.add_mul, Nat.one_mul, Nat.mul_one]; omega
      · rw [Nat.add_zero, Nat.mul_one]; exact h3.trans (Nat.le_add_right _ _)
    have hfin := roundLow_lt_of_le (isFinite_u2f (n := k + 1) (by omega)) Nat.one_pos hup
    refine ⟨isFinite_roundRatio hfin, sign_roundRatio hfin, ?_, ?_⟩
    · have := le_magnitude_roundRatio (neg := false) Nat.one_pos hfin hlow
      rwa [hbot] at this
    · have := magnitude_roundRatio_le (isFinite_u2f (n := k + 1) (by omega)) (neg := false) Nat.one_pos hup
      rwa [htop] at this

/-- The exact sum of the first `k` terms, in units of `2^(-R)`. -/
def exactSum (R : Nat) (f : Nat → RegValue) : Nat → Nat
  | 0 => 0
  | k + 1 => exactSum R f k + 2 ^ (R - (f k).toNat)

/-- Where no register exceeds `R` and the exact sum in units of `2^(-R)` is at most `2^53`, no addition rounds (R102). -/
theorem partialSum_exact {R : Nat} (hR : R ≤ 1074) {f : Nat → RegValue} {k : Nat} (hf : ∀ i < k, (f i).toNat ≤ R)
    (hsum : exactSum R f k ≤ 2 ^ 53) :
    isFinite (partialSum f k) = true ∧ sign (partialSum f k) = false ∧
      magnitude (partialSum f k) = exactSum R f k * 2 ^ (1074 - R) := by
  induction k with
  | zero => exact ⟨isFinite_plusZero, sign_plusZero, by rw [exactSum, Nat.zero_mul]; exact magnitude_plusZero⟩
  | succ k ih =>
    unfold exactSum at hsum
    obtain ⟨h1, h2, h3⟩ := ih (fun i hi => hf i (by omega)) ((Nat.le_add_right _ _).trans hsum)
    have hk := hf k (by omega)
    have hterm : (2 : Nat) ^ (1074 - (f k).toNat) = 2 ^ (R - (f k).toNat) * 2 ^ (1074 - R) := by
      rw [← pow_add]; congr 1; omega
    have hx : magnitude (partialSum f k) + 2 ^ (1074 - (f k).toNat) = exactSum R f (k + 1) * 2 ^ (1074 - R) * 1 := by
      rw [h3, hterm, Nat.mul_one, exactSum, Nat.add_mul]
    have he := magnitude_roundRatio_exact (neg := false) (m := exactSum R f (k + 1)) (e := 1074 - R) hsum (by omega)
      Nat.one_pos
    unfold partialSum
    rw [fadd_nonneg h1 (isFinite_pow2neg _) h2 (sign_pow2neg _), magnitude_pow2neg, hx]
    exact ⟨isFinite_roundRatio he.1, sign_roundRatio he.1, he.2⟩

/-- The exact sum as a pattern. -/
theorem partialSum_eq_of_exact {R : Nat} (hR : R ≤ 1074) {f : Nat → RegValue} {k : Nat}
    (hf : ∀ i < k, (f i).toNat ≤ R) (hsum : exactSum R f k ≤ 2 ^ 53) :
    partialSum f k = roundRatio false (exactSum R f k * 2 ^ (1074 - R)) 1 := by
  obtain ⟨-, h2, h3⟩ := partialSum_exact hR hf hsum
  have he := magnitude_roundRatio_exact (neg := false) (m := exactSum R f k) (e := 1074 - R) hsum (by omega) Nat.one_pos
  rw [Nat.mul_one] at he
  exact ext_sign_magnitude (by rw [h2, sign_roundRatio he.1]) (by rw [h3, he.2])

/-- The exact sum of the terms at the indices, in units of `2^(-R)`. -/
def exactTerms (R : Nat) (f : Nat → RegValue) (indices : List Nat) : Nat :=
  (indices.map fun i => 2 ^ (R - (f i).toNat)).sum

theorem exactTerms_append (R : Nat) (f : Nat → RegValue) (l r : List Nat) :
    exactTerms R f (l ++ r) = exactTerms R f l + exactTerms R f r := by
  rw [exactTerms, List.map_append, List.sum_append]; rfl

theorem exactTerms_perm (R : Nat) (f : Nat → RegValue) {l r : List Nat} (h : l.Perm r) :
    exactTerms R f l = exactTerms R f r := (h.map _).sum_eq

theorem exactTerms_range (R : Nat) (f : Nat → RegValue) (k : Nat) : exactTerms R f (List.range k) = exactSum R f k := by
  induction k with
  | zero => rfl
  | succ k ih => rw [List.range_succ, exactTerms_append, ih, exactSum]; rfl

/-- Where no term is smaller than `2^(-R)` and the exact sum in units of `2^(-R)` is at most `2^53`, no adder of a tree
rounds (R102). -/
theorem AdderTree.sum_exact {R : Nat} (hR : R ≤ 1074) {f : Nat → RegValue} {tree : AdderTree}
    (hf : ∀ i ∈ tree.indices, (f i).toNat ≤ R) (hsum : exactTerms R f tree.indices ≤ 2 ^ 53) :
    isFinite (tree.sum f) = true ∧ sign (tree.sum f) = false ∧
      magnitude (tree.sum f) = exactTerms R f tree.indices * 2 ^ (1074 - R) := by
  induction tree with
  | term i =>
    have hi := hf i (List.mem_singleton.2 rfl)
    refine ⟨isFinite_pow2neg _, sign_pow2neg _, ?_⟩
    rw [AdderTree.sum, magnitude_pow2neg, AdderTree.indices, exactTerms, List.map_singleton, List.sum_singleton, ← pow_add]
    congr 1; omega
  | adder l r ihl ihr =>
    rw [AdderTree.indices, exactTerms_append] at hsum
    obtain ⟨l1, l2, l3⟩ := ihl (fun i hi => hf i (List.mem_append_left _ hi)) ((Nat.le_add_right _ _).trans hsum)
    obtain ⟨r1, r2, r3⟩ := ihr (fun i hi => hf i (List.mem_append_right _ hi)) ((Nat.le_add_left _ _).trans hsum)
    have he := magnitude_roundRatio_exact (neg := false) (e := 1074 - R) hsum (by omega) Nat.one_pos
    rw [AdderTree.sum, fadd_nonneg l1 r1 l2 r2, l3, r3, ← Nat.add_mul, AdderTree.indices, exactTerms_append]
    rw [Nat.mul_one] at he
    exact ⟨isFinite_roundRatio he.1, sign_roundRatio he.1, he.2⟩

end Sys2Proof.Machine
end

