-- ==== Sys2Proof/Laws/Log.lean ====
section
/-! SUPPORT. The fixed-point logarithm of `Machine/Log.lean` against the real logarithm: `lnFixed n` is `2^128 * ln n` from
below, within `2^12` (`41_estimator.md` rule R107, property P2). -/

namespace Sys2Proof.Machine.Log

open Real

/-- The series that `atanhFixed` sums, as a function of the real number `z`. -/
noncomputable def atanhTerm (z : ℝ) (j : ℕ) : ℝ := z ^ (2 * j + 1) / (2 * j + 1)

theorem hasSum_atanhTerm {z : ℝ} (h0 : 0 ≤ z) (h1 : z < 1) :
    HasSum (atanhTerm z) ((log (1 + z) - log (1 - z)) / 2) := by
  have h := (hasSum_log_sub_log_of_abs_lt_one (x := z) (by rw [abs_of_nonneg h0]; exact h1)).div_const 2
  have hf : (fun j : ℕ => 2 * (1 / (2 * (j : ℝ) + 1)) * z ^ (2 * j + 1) / 2) = atanhTerm z := by
    funext j; unfold atanhTerm; ring
  rwa [hf] at h

theorem atanhTerm_nonneg {z : ℝ} (h0 : 0 ≤ z) (j : ℕ) : 0 ≤ atanhTerm z j := by unfold atanhTerm; positivity

/-- One rounded term against the term. -/
theorem term_bounds (num : ℕ) {den : ℕ} (hden : 0 < den) (j : ℕ) :
    ((2 ^ fractionBits * num ^ (2 * j + 1) / (den ^ (2 * j + 1) * (2 * j + 1)) : ℕ) : ℝ) ≤
        2 ^ fractionBits * atanhTerm (num / den) j ∧
      2 ^ fractionBits * atanhTerm (num / den) j ≤
        ((2 ^ fractionBits * num ^ (2 * j + 1) / (den ^ (2 * j + 1) * (2 * j + 1)) : ℕ) : ℝ) + 1 := by
  have hd : (0 : ℝ) < den := by exact_mod_cast hden
  have hx : (2 : ℝ) ^ fractionBits * atanhTerm (num / den) j =
      ((2 ^ fractionBits * num ^ (2 * j + 1) : ℕ) : ℝ) / ((den ^ (2 * j + 1) * (2 * j + 1) : ℕ) : ℝ) := by
    unfold atanhTerm; push_cast; rw [div_pow]; field_simp
  rw [hx]
  refine ⟨Nat.cast_div_le, ?_⟩
  have hpos : (0 : ℝ) < ((den ^ (2 * j + 1) * (2 * j + 1) : ℕ) : ℝ) := by
    have := Nat.mul_pos (Nat.pow_pos hden (n := 2 * j + 1)) (Nat.succ_pos (2 * j))
    exact_mod_cast this
  rw [div_le_iff₀ hpos]
  have := Nat.lt_div_mul_add (a := 2 ^ fractionBits * num ^ (2 * j + 1)) (b := den ^ (2 * j + 1) * (2 * j + 1))
    (by exact_mod_cast hpos)
  have h2 : 2 ^ fractionBits * num ^ (2 * j + 1) ≤
      (2 ^ fractionBits * num ^ (2 * j + 1) / (den ^ (2 * j + 1) * (2 * j + 1)) + 1) *
        (den ^ (2 * j + 1) * (2 * j + 1)) := by rw [Nat.add_mul, Nat.one_mul]; exact this.le
  exact_mod_cast h2

/-- The rounded partial sum against the exact partial sum. -/
theorem atanhFixed_partial (num : ℕ) {den : ℕ} (hden : 0 < den) (k : ℕ) :
    (atanhFixed num den k : ℝ) ≤ 2 ^ fractionBits * ∑ j ∈ Finset.range k, atanhTerm (num / den) j ∧
      2 ^ fractionBits * ∑ j ∈ Finset.range k, atanhTerm (num / den) j ≤ (atanhFixed num den k : ℝ) + k := by
  induction k with
  | zero => simp [atanhFixed]
  | succ k ih =>
    obtain ⟨h1, h2⟩ := term_bounds num hden k
    rw [Finset.sum_range_succ, mul_add, atanhFixed, Nat.cast_add]
    refine ⟨add_le_add ih.1 h1, ?_⟩
    push_cast at ih h2 ⊢
    linarith [ih.2]

/-- What the series still adds after its first 44 terms, for `z` at most 1/3. -/
theorem atanh_tail {z : ℝ} (h0 : 0 ≤ z) (h1 : z ≤ 1 / 3) :
    (log (1 + z) - log (1 - z)) / 2 - ∑ j ∈ Finset.range terms, atanhTerm z j ≤ (1 / 3) ^ 89 * (9 / 8) := by
  have hs := (hasSum_nat_add_iff' terms).2 (hasSum_atanhTerm h0 (by linarith))
  have hg : HasSum (fun j : ℕ => (1 / 3 : ℝ) ^ 89 * (1 / 9) ^ j) ((1 / 3) ^ 89 * (9 / 8)) := by
    rw [show (9 / 8 : ℝ) = (1 - 1 / 9)⁻¹ by norm_num]
    exact (hasSum_geometric_of_lt_one (r := (1 / 9 : ℝ)) (by norm_num) (by norm_num)).mul_left _
  refine hasSum_le (fun j => ?_) hs hg
  have hz : z ^ (2 * (j + terms) + 1) ≤ (1 / 3 : ℝ) ^ (2 * (j + terms) + 1) := pow_le_pow_left₀ h0 h1 _
  have hterm : ∀ t : ℕ, atanhTerm z t ≤ z ^ (2 * t + 1) := fun t => by
    have : (0 : ℝ) ≤ t := Nat.cast_nonneg t
    exact div_le_self (by positivity) (by linarith)
  calc atanhTerm z (j + terms) ≤ z ^ (2 * (j + terms) + 1) := hterm _
    _ ≤ (1 / 3 : ℝ) ^ (2 * (j + terms) + 1) := hz
    _ = (1 / 3 : ℝ) ^ 89 * (1 / 9) ^ j := by
        rw [show 2 * (j + terms) + 1 = 89 + 2 * j by unfold terms; omega, pow_add, pow_mul]; norm_num

/-- `atanhFixed` is `2^128` times the inverse hyperbolic tangent from below, within 45, for `num/den` at most 1/3. -/
theorem atanhFixed_bounds {num den : ℕ} (hden : 0 < den) (h : 3 * num ≤ den) :
    (atanhFixed num den terms : ℝ) ≤
        2 ^ fractionBits * ((log (1 + num / den) - log (1 - num / den)) / 2) ∧
      2 ^ fractionBits * ((log (1 + num / den) - log (1 - num / den)) / 2) ≤ (atanhFixed num den terms : ℝ) + 45 := by
  have hd : (0 : ℝ) < den := by exact_mod_cast hden
  have h0 : (0 : ℝ) ≤ (num : ℝ) / den := by positivity
  have h1 : (num : ℝ) / den ≤ 1 / 3 := by
    rw [div_le_div_iff₀ hd (by norm_num)]
    have : (3 * num : ℝ) ≤ den := by exact_mod_cast h
    linarith
  obtain ⟨a, b⟩ := atanhFixed_partial num hden terms
  have hsum := sum_le_hasSum (Finset.range terms) (fun j _ => atanhTerm_nonneg h0 j)
    (hasSum_atanhTerm h0 (by linarith))
  have htail := atanh_tail h0 h1
  have hp : (0 : ℝ) < 2 ^ fractionBits := by positivity
  refine ⟨a.trans (mul_le_mul_of_nonneg_left hsum hp.le), ?_⟩
  have hsmall : (2 : ℝ) ^ fractionBits * ((1 / 3) ^ 89 * (9 / 8)) ≤ 1 := by unfold fractionBits; norm_num
  have hk : ((terms : ℕ) : ℝ) = 44 := by unfold terms; norm_num
  rw [hk] at b
  have := mul_le_mul_of_nonneg_left htail hp.le
  rw [mul_sub] at this
  linarith

/-- `ln n` by the reduction that `lnFixed` makes. -/
theorem log_reduced {n k : ℕ} (hk : 2 ^ k ≤ n) :
    log n = k * (log (1 + (1 : ℕ) / (3 : ℕ)) - log (1 - (1 : ℕ) / (3 : ℕ))) +
      (log (1 + ((n - 2 ^ k : ℕ) : ℝ) / ((n + 2 ^ k : ℕ) : ℝ)) -
        log (1 - ((n - 2 ^ k : ℕ) : ℝ) / ((n + 2 ^ k : ℕ) : ℝ))) := by
  have h2 : (0 : ℝ) < 2 ^ k := by positivity
  have hn : (0 : ℝ) < n := by
    have : (1 : ℕ) ≤ n := (Nat.one_le_two_pow).trans hk
    exact_mod_cast this
  have hs : (0 : ℝ) < n + 2 ^ k := by linarith
  have e1 : (1 : ℝ) + (1 : ℕ) / (3 : ℕ) = 4 / 3 := by norm_num
  have e2 : (1 : ℝ) - (1 : ℕ) / (3 : ℕ) = 2 / 3 := by norm_num
  have e3 : (1 : ℝ) + ((n - 2 ^ k : ℕ) : ℝ) / ((n + 2 ^ k : ℕ) : ℝ) = 2 * n / (n + 2 ^ k) := by
    push_cast [Nat.cast_sub hk]; field_simp; ring
  have e4 : (1 : ℝ) - ((n - 2 ^ k : ℕ) : ℝ) / ((n + 2 ^ k : ℕ) : ℝ) = 2 * 2 ^ k / (n + 2 ^ k) := by
    push_cast [Nat.cast_sub hk]; field_simp; ring
  rw [e1, e2, e3, e4, ← log_div (by norm_num) (by norm_num), ← log_div (by positivity) (by positivity)]
  have e5 : (2 * (n : ℝ) / (n + 2 ^ k)) / (2 * 2 ^ k / (n + 2 ^ k)) = n / 2 ^ k := by field_simp
  rw [e5, log_div hn.ne' h2.ne', log_pow]
  norm_num

/-- `lnFixed n` is `2^128 * ln n` from below, within `2^12`. -/
theorem lnFixed_bounds {n : ℕ} (h1 : 1 ≤ n) (h2 : n ≤ 16385) :
    (lnFixed n : ℝ) ≤ 2 ^ fractionBits * log n ∧ 2 ^ fractionBits * log n < (lnFixed n : ℝ) + 2 ^ 12 := by
  obtain ⟨k, hk⟩ : ∃ k, k = Nat.log2 n := ⟨_, rfl⟩
  have hn : n ≠ 0 := by omega
  have hle : 2 ^ k ≤ n := hk ▸ Nat.log2_self_le hn
  have hlt : n < 2 ^ (k + 1) := hk ▸ Nat.lt_log2_self
  have hk14 : k ≤ 14 := by
    by_contra hc
    have : 2 ^ 15 ≤ 2 ^ k := Nat.pow_le_pow_right (by omega) (by omega)
    omega
  have hf : lnFixed n = 2 * (k * atanhFixed 1 3 terms + atanhFixed (n - 2 ^ k) (n + 2 ^ k) terms) := by
    unfold lnFixed; dsimp only; rw [F64.floorLog2_eq, ← hk]
  obtain ⟨a, b⟩ := atanhFixed_bounds (num := 1) (den := 3) (by norm_num) (by norm_num)
  obtain ⟨c, d⟩ := atanhFixed_bounds (num := n - 2 ^ k) (den := n + 2 ^ k) (by omega) (by rw [pow_succ] at hlt; omega)
  rw [hf, log_reduced hle]
  generalize (log (1 + ((1 : ℕ) : ℝ) / ((3 : ℕ) : ℝ)) - log (1 - ((1 : ℕ) : ℝ) / ((3 : ℕ) : ℝ))) = x at *
  generalize (log (1 + ((n - 2 ^ k : ℕ) : ℝ) / ((n + 2 ^ k : ℕ) : ℝ)) -
        log (1 - ((n - 2 ^ k : ℕ) : ℝ) / ((n + 2 ^ k : ℕ) : ℝ))) = y at *
  generalize (2 : ℝ) ^ fractionBits = p at *
  have hk0 : (0 : ℝ) ≤ k := Nat.cast_nonneg k
  have hkr : (k : ℝ) ≤ 14 := by exact_mod_cast hk14
  have m1 := mul_le_mul_of_nonneg_left a hk0
  have m2 := mul_le_mul_of_nonneg_left b hk0
  push_cast
  constructor
  · nlinarith
  · nlinarith

end Sys2Proof.Machine.Log
end

