-- ==== Sys2Proof/Laws/Memory.lean ====
section
/-! SUPPORT. The laws of the register array: what a read gives after a write and after the update primitive, the canonical
form that every operation keeps, and that arrays in canonical form with equal registers are equal. -/

namespace Sys2Proof.Machine.Memory

@[simp] theorem read_empty (a : Nat) : Memory.empty.read a = 0 := rfl

theorem read_write_other (m : Memory) {a b : Nat} (v : RegValue) (h : b ≠ a) :
    (m.write a v).read b = m.read b := by
  induction m with
  | nil => simp only [write]; split <;> simp [read, h]
  | cons c rest ih =>
    obtain ⟨d, u⟩ := c
    simp only [write]
    split
    · split <;> simp [read, h]
    · split
      · subst_vars; split <;> simp [read, h]
      · simp [read, ih]

theorem read_write_same (m : Memory) (a : Nat) {v : RegValue} (h : v ≠ 0) : (m.write a v).read a = v := by
  induction m with
  | nil => rw [write, if_neg h, read, if_pos rfl]
  | cons c rest ih =>
    obtain ⟨d, u⟩ := c
    rw [write, if_neg h, if_neg h]
    split
    · rw [read, if_pos rfl]
    · split
      · rw [read, if_pos rfl]
      · rename_i h'; rw [read, if_neg h', ih]

/-- An index below the first listed one is not listed. -/
theorem read_of_wfFrom {m : Memory} {lo a : Nat} (hm : wfFrom lo m = true) (ha : a < lo) : m.read a = 0 := by
  induction m generalizing lo with
  | nil => rfl
  | cons c rest ih =>
    obtain ⟨d, u⟩ := c
    simp only [wfFrom, Bool.and_eq_true, decide_eq_true_eq] at hm
    have : a ≠ d := by omega
    simp only [read, this, if_false]
    exact ih hm.2 (by omega)

theorem wfFrom_mono {m : Memory} {lo lo' : Nat} (h : lo' ≤ lo) (hm : wfFrom lo m = true) : wfFrom lo' m = true := by
  cases m with
  | nil => rfl
  | cons c rest =>
    obtain ⟨d, u⟩ := c
    simp only [wfFrom, Bool.and_eq_true, decide_eq_true_eq] at hm ⊢
    exact ⟨⟨⟨by omega, hm.1.1.2⟩, hm.1.2⟩, hm.2⟩

theorem wfFrom_write {m : Memory} {lo a : Nat} (v : RegValue) (hm : wfFrom lo m = true) (hlo : lo ≤ a)
    (ha : a < Config.numRegs) : wfFrom lo (m.write a v) = true := by
  induction m generalizing lo with
  | nil =>
    simp only [write]
    split
    · rfl
    · simp_all [wfFrom]
  | cons c rest ih =>
    obtain ⟨d, u⟩ := c
    have hm' := hm
    simp only [wfFrom, Bool.and_eq_true, decide_eq_true_eq] at hm'
    obtain ⟨⟨⟨h1, h2⟩, h3⟩, h4⟩ := hm'
    simp only [write]
    split
    · split
      · exact hm
      · rename_i hv
        simp only [wfFrom, Bool.and_eq_true, decide_eq_true_eq]
        exact ⟨⟨⟨hlo, ha⟩, hv⟩, ⟨⟨⟨by omega, h2⟩, h3⟩, h4⟩⟩
    · split
      · split
        · exact wfFrom_mono (by omega) h4
        · rename_i hd hv
          subst hd
          simp only [wfFrom, Bool.and_eq_true, decide_eq_true_eq]
          exact ⟨⟨⟨h1, h2⟩, hv⟩, h4⟩
      · simp only [wfFrom, Bool.and_eq_true, decide_eq_true_eq]
        exact ⟨⟨⟨h1, h2⟩, h3⟩, ih h4 (by omega)⟩

/-- A write of any value keeps the canonical form. -/
theorem wf_write {m : Memory} (a : Index) (v : RegValue) (hm : m.wf = true) : (m.write a.toNat v).wf = true :=
  wfFrom_write v hm (Nat.zero_le _) a.isLt

theorem wf_empty : Memory.empty.wf = true := rfl

theorem wf_update {m : Memory} (i : Index) (v : RegValue) (hm : m.wf = true) : (m.update i v).wf = true := by
  unfold update; split
  · exact wf_write i v hm
  · exact hm

theorem wf_addHash {m : Memory} (h : Word64) (hm : m.wf = true) : (m.addHash h).wf = true := wf_update _ _ hm

theorem wf_merge {a b : Memory} (ha : a.wf = true) : (a.merge b).wf = true := by
  unfold merge
  induction b generalizing a with
  | nil => exact ha
  | cons c rest ih => exact ih (wf_update _ _ ha)

/-- No register stands at an index of 16384 or more. -/
theorem read_beyond {m : Memory} {lo a : Nat} (hm : wfFrom lo m = true) (ha : Config.numRegs ≤ a) : m.read a = 0 := by
  induction m generalizing lo with
  | nil => rfl
  | cons c rest ih =>
    obtain ⟨d, u⟩ := c
    simp only [wfFrom, Bool.and_eq_true, decide_eq_true_eq] at hm
    have : a ≠ d := by omega
    simp only [read, this, if_false]
    exact ih hm.2

theorem eq_of_read_from {m n : Memory} {lo : Nat} (hm : wfFrom lo m = true) (hn : wfFrom lo n = true)
    (h : ∀ a, m.read a = n.read a) : m = n := by
  induction m generalizing n lo with
  | nil =>
    cases n with
    | nil => rfl
    | cons c rest =>
      obtain ⟨d, u⟩ := c
      simp only [wfFrom, Bool.and_eq_true, decide_eq_true_eq] at hn
      have := h d
      simp [read] at this
      exact absurd this.symm hn.1.2
  | cons c rest ih =>
    obtain ⟨d, u⟩ := c
    have hm' := hm
    simp only [wfFrom, Bool.and_eq_true, decide_eq_true_eq] at hm'
    cases n with
    | nil =>
      have := h d
      simp [read] at this
      exact absurd this hm'.1.2
    | cons c' rest' =>
      obtain ⟨d', u'⟩ := c'
      have hn' := hn
      simp only [wfFrom, Bool.and_eq_true, decide_eq_true_eq] at hn'
      have hd : d = d' := by
        rcases Nat.lt_trichotomy d d' with hlt | heq | hgt
        · have h1 := h d
          have : d ≠ d' := by omega
          simp only [read, if_true, this, if_false] at h1
          rw [read_of_wfFrom hn'.2 (by omega)] at h1
          exact absurd h1 hm'.1.2
        · exact heq
        · have h1 := h d'
          have : d' ≠ d := by omega
          simp only [read, if_true, this, if_false] at h1
          rw [read_of_wfFrom hm'.2 (by omega)] at h1
          exact absurd h1.symm hn'.1.2
      subst hd
      have hu : u = u' := by simpa [read] using h d
      subst hu
      rw [ih hm'.2 hn'.2]
      intro a
      by_cases ha : a = d
      · subst ha
        rw [read_of_wfFrom hm'.2 (by omega), read_of_wfFrom hn'.2 (by omega)]
      · simpa [read, ha] using h a

/-- Two arrays in canonical form that agree at every index are the same list. -/
theorem eq_of_read {m n : Memory} (hm : m.wf = true) (hn : n.wf = true)
    (h : ∀ i : Index, m.read i.toNat = n.read i.toNat) : m = n := by
  refine eq_of_read_from hm hn fun a => ?_
  by_cases ha : a < 2 ^ 14
  · have := h (BitVec.ofNat 14 a); rwa [BitVec.toNat_ofNat, Nat.mod_eq_of_lt ha] at this
  · rw [read_beyond hm (by simpa using ha), read_beyond hn (by simpa using ha)]

theorem read_update_other (m : Memory) (i : Index) (v : RegValue) {a : Nat} (h : a ≠ i.toNat) :
    (m.update i v).read a = m.read a := by
  unfold update; split
  · exact read_write_other m v h
  · rfl

theorem read_update_same (m : Memory) (i : Index) (v : RegValue) :
    (m.update i v).read i.toNat = if m.read i.toNat < v then v else m.read i.toNat := by
  unfold update; split
  · rename_i h
    refine read_write_same m _ fun h0 => ?_
    subst h0
    simp at h
  · rfl

/-- The update primitive on one register, as a maximum of naturals. -/
theorem toNat_read_update_same (m : Memory) (i : Index) (v : RegValue) :
    ((m.update i v).read i.toNat).toNat = max (m.read i.toNat).toNat v.toNat := by
  rw [read_update_same]
  split <;> rename_i h <;> rw [BitVec.lt_def] at h <;> omega

/-- The update primitive on every register. -/
theorem toNat_read_update (m : Memory) (i j : Index) (v : RegValue) :
    ((m.update i v).read j.toNat).toNat =
      if j = i then max (m.read j.toNat).toNat v.toNat else (m.read j.toNat).toNat := by
  split
  · subst_vars; exact toNat_read_update_same m _ v
  · rename_i h
    rw [read_update_other m i v fun h' => h (BitVec.eq_of_toNat_eq h')]

end Sys2Proof.Machine.Memory
end

