-- ==== Sys2Proof/Laws/Ops.lean ====
section
/-! SUPPORT. What the operations built on the update primitive do to every register. -/

namespace Sys2Proof.Machine.Memory

/-- Merge on every register, for an array `b` whose listed indices are registers. -/
theorem toNat_read_merge_from (a b : Memory) {lo : Nat} (hb : wfFrom lo b = true) (j : Index) :
    ((a.merge b).read j.toNat).toNat = max (a.read j.toNat).toNat (b.read j.toNat).toNat := by
  unfold merge
  induction b generalizing a lo with
  | nil => simp [read]
  | cons c rest ih =>
    obtain ⟨d, u⟩ := c
    simp only [wfFrom, Bool.and_eq_true, decide_eq_true_eq] at hb
    rw [List.foldl_cons, ih (a.update (BitVec.ofNat 14 d) u) hb.2, toNat_read_update]
    have hd : (BitVec.ofNat 14 d).toNat = d := by
      rw [BitVec.toNat_ofNat]; exact Nat.mod_eq_of_lt hb.1.1.2
    by_cases h : j.toNat = d
    · have hj : j = BitVec.ofNat 14 d := BitVec.eq_of_toNat_eq (by omega)
      rw [if_pos hj, read, if_pos h, read_of_wfFrom hb.2 (by omega)]
      simp
    · have hj : j ≠ BitVec.ofNat 14 d := fun h' => h (by rw [h', hd])
      rw [if_neg hj, read, if_neg h]

/-- Merge is the register-wise maximum (R134). -/
theorem toNat_read_merge (a : Memory) {b : Memory} (hb : b.wf = true) (j : Index) :
    ((a.merge b).read j.toNat).toNat = max (a.read j.toNat).toNat (b.read j.toNat).toNat :=
  toNat_read_merge_from a b hb j

/-- ADDHASH on every register. -/
theorem toNat_read_addHash (m : Memory) (h : Word64) (j : Index) :
    ((m.addHash h).read j.toNat).toNat =
      if j = hashedAddress h then max (m.read j.toNat).toNat (rankValue (rank h)).toNat
      else (m.read j.toNat).toNat := toNat_read_update m _ j _

end Sys2Proof.Machine.Memory
end

