-- ==== Sys2Proof/Laws/PerInstr.lean ====
section
/-! SUPPORT. One lemma per constructor of `Instr` for each family of statements about commands as syntax. -/

namespace Sys2Proof.Laws.RoundTrip

/-- The command's word decodes to the command (`30_encoding.md` rule R72). -/
def Statement (i : Instr) : Prop := decode (encode i) = .ok i

theorem nop : Statement .nop := rfl
theorem clear : Statement .clear := rfl
theorem estimate : Statement .estimate := rfl
theorem rdalpha : Statement .rdalpha := rfl

theorem split (hash : Word64) : Statement (.split hash) := by
  simp [Statement, decode, Instr.opcode, Instr.operand]

theorem addhash (hash : Word64) : Statement (.addhash hash) := by
  simp [Statement, decode, Instr.opcode, Instr.operand]

theorem rdreg (index : Index) : Statement (.rdreg index) := by
  have h1 : (Instr.rdreg index).operand.extractLsb' 14 50 = 0 := by
    apply BitVec.eq_of_toNat_eq
    rw [BitVec.extractLsb'_toNat, operand_rdreg_toNat, Nat.shiftRight_eq_div_pow]
    have := index.isLt
    change _ = 0; omega
  have h2 : indexField (Instr.rdreg index).operand = index := by
    apply BitVec.eq_of_toNat_eq
    rw [indexField, BitVec.extractLsb'_toNat, operand_rdreg_toNat, Nat.shiftRight_zero]
    have := index.isLt; omega
  simp only [Statement, decode, opcodeOf_encode, operandOf_encode]
  simp only [Instr.opcode, formatI, h1, h2, if_true, BitVec.ofNat_eq_ofNat, BitVec.toNat_ofNat, Nat.reducePow,
    Nat.reduceMod]

theorem update (index : Index) (value : RegValue) : Statement (.update index value) := by
  have hi := index.isLt
  have hv := value.isLt
  have h1 : (Instr.update index value).operand.extractLsb' 24 40 = 0 := by
    apply BitVec.eq_of_toNat_eq
    rw [BitVec.extractLsb'_toNat, operand_update_toNat, Nat.shiftRight_eq_div_pow]
    change _ = 0; omega
  have h2 : (Instr.update index value).operand.extractLsb' 14 2 = 0 := by
    apply BitVec.eq_of_toNat_eq
    rw [BitVec.extractLsb'_toNat, operand_update_toNat, Nat.shiftRight_eq_div_pow]
    change _ = 0; omega
  have h3 : indexField (Instr.update index value).operand = index := by
    apply BitVec.eq_of_toNat_eq
    rw [indexField, BitVec.extractLsb'_toNat, operand_update_toNat, Nat.shiftRight_zero]; omega
  have h4 : valueField (Instr.update index value).operand = value := by
    apply BitVec.eq_of_toNat_eq
    rw [valueField, BitVec.extractLsb'_toNat, operand_update_toNat, Nat.shiftRight_eq_div_pow]; omega
  simp only [Statement, decode, opcodeOf_encode, operandOf_encode]
  simp only [Instr.opcode, formatU, h1, h2, h3, h4, and_self, if_true, BitVec.ofNat_eq_ofNat, BitVec.toNat_ofNat,
    Nat.reducePow, Nat.reduceMod]

end Sys2Proof.Laws.RoundTrip

namespace Sys2Proof.Laws.WellFormed

/-- The command is well-formed: every operand at its own width is in the range `30_encoding.md` rule R70 states. -/
def Statement (i : Instr) : Prop := i.wellFormed = true

theorem nop : Statement .nop := rfl
theorem clear : Statement .clear := rfl
theorem split (hash : Word64) : Statement (.split hash) := decide_eq_true hash.isLt
theorem update (index : Index) (value : RegValue) : Statement (.update index value) := by
  simp only [Statement, Instr.wellFormed, Instr.line, Line.wellFormed, Bool.and_eq_true, decide_eq_true_eq]
  exact ⟨index.isLt, value.isLt⟩
theorem addhash (hash : Word64) : Statement (.addhash hash) := decide_eq_true hash.isLt
theorem estimate : Statement .estimate := rfl
theorem rdreg (index : Index) : Statement (.rdreg index) := decide_eq_true index.isLt
theorem rdalpha : Statement .rdalpha := rfl

end Sys2Proof.Laws.WellFormed
end

