-- ==== Sys2Proof/Laws/Splitter.lean ====
section
/-! SUPPORT. Leading zeros and the rank. -/

namespace Sys2Proof.Machine

theorem leadingZerosBelow_le {w : Nat} (v : BitVec w) (k : Nat) : leadingZerosBelow v k ≤ k := by
  induction k with
  | zero => exact Nat.le_refl 0
  | succ k ih => unfold leadingZerosBelow; split <;> omega

/-- The count reaches down to the first 1. -/
theorem leadingZerosBelow_of_first_one {w : Nat} {v : BitVec w} {k n : Nat} (hn : n < k)
    (hzero : ∀ j, n < j → j < k → v.getLsbD j = false) (hone : v.getLsbD n = true) :
    leadingZerosBelow v k = k - 1 - n := by
  induction k with
  | zero => omega
  | succ k ih =>
    unfold leadingZerosBelow
    by_cases h : n = k
    · subst h; simp [hone]
    · have hk := hzero k (by omega) (by omega)
      rw [hk, ih (by omega) fun j h1 h2 => hzero j h1 (by omega)]
      simp; omega

/-- With no 1 at all the count is the width. -/
theorem leadingZerosBelow_of_zero {w : Nat} {v : BitVec w} {k : Nat} (hzero : ∀ j, j < k → v.getLsbD j = false) :
    leadingZerosBelow v k = k := by
  induction k with
  | zero => rfl
  | succ k ih =>
    unfold leadingZerosBelow
    rw [hzero k (by omega), ih fun j h => hzero j (by omega)]
    simp; omega

theorem clz_le {w : Nat} (v : BitVec w) : clz v ≤ w := leadingZerosBelow_le v w

/-- The 6-bit rank does not wrap (R86). -/
theorem rank_toNat (h : Word64) : (rank h).toNat = 1 + clz (suffix h) := by
  have := clz_le (suffix h)
  rw [rank, BitVec.toNat_ofNat, Nat.mod_eq_of_lt (by omega)]

/-- Zero-extension keeps the rank. -/
theorem rankValue_toNat (r : Rank) : (rankValue r).toNat = r.toNat := by
  have := r.isLt
  simp only [rankValue, BitVec.toNat_setWidth]
  omega

/-- SPLIT's data in numbers: `r * 65536 + i` (R84). -/
theorem splitData_toNat (r : Rank) (i : Index) : (splitData r i).toNat = r.toNat * 65536 + i.toNat := by
  have hi := i.isLt
  have hr := (rankValue r).isLt
  have h := rankValue_toNat r
  rw [splitData, BitVec.toNat_setWidth, BitVec.toNat_append,
    ← Nat.shiftLeft_add_eq_or_of_lt hi, BitVec.toNat_append]
  simp only [BitVec.toNat_ofNat, Nat.zero_mod, Nat.or_zero, Nat.shiftLeft_eq]
  omega

end Sys2Proof.Machine
end

