-- ==== Sys2Proof/Laws/State.lean ====
section
/-! SUPPORT. The fields of State after each of its updates, one lemma per field per update. -/

namespace Sys2Proof.Machine

variable (s : State)

@[simp] theorem State.setRegs_regs (m : Memory) : (s.setRegs m).regs = m := rfl
@[simp] theorem State.setRegs_inbox (m : Memory) : (s.setRegs m).inbox = s.inbox := rfl
@[simp] theorem State.setRegs_pending (m : Memory) : (s.setRegs m).pending = s.pending := rfl
@[simp] theorem State.setRegs_delivered (m : Memory) : (s.setRegs m).delivered = s.delivered := rfl

@[simp] theorem State.answer_regs (r : Response) : (s.answer r).regs = s.regs := rfl
@[simp] theorem State.answer_inbox (r : Response) : (s.answer r).inbox = s.inbox := rfl
@[simp] theorem State.answer_pending (r : Response) : (s.answer r).pending = s.pending ++ [r] := rfl
@[simp] theorem State.answer_delivered (r : Response) : (s.answer r).delivered = s.delivered := rfl

@[simp] theorem State.respond_regs (c : Status) (d : Word64) : (s.respond c d).regs = s.regs := rfl
@[simp] theorem State.respond_inbox (c : Status) (d : Word64) : (s.respond c d).inbox = s.inbox := rfl
@[simp] theorem State.respond_pending (c : Status) (d : Word64) :
    (s.respond c d).pending = s.pending ++ [⟨c, d⟩] := rfl
@[simp] theorem State.respond_delivered (c : Status) (d : Word64) : (s.respond c d).delivered = s.delivered := rfl

@[simp] theorem State.illegalCommand_regs : s.illegalCommand.regs = s.regs := rfl
@[simp] theorem State.illegalCommand_inbox : s.illegalCommand.inbox = s.inbox := rfl
@[simp] theorem State.illegalCommand_pending : s.illegalCommand.pending = s.pending ++ [⟨.illegalCmd, 0⟩] := rfl
@[simp] theorem State.illegalCommand_delivered : s.illegalCommand.delivered = s.delivered := rfl

@[simp] theorem State.takeReset_regs : s.takeReset.regs = Memory.empty := rfl
@[simp] theorem State.takeReset_inbox : s.takeReset.inbox = s.inbox := rfl
@[simp] theorem State.takeReset_pending : s.takeReset.pending = [] := rfl
@[simp] theorem State.takeReset_delivered : s.takeReset.delivered = s.delivered := rfl

@[simp] theorem State.withInbox_regs (l : List PortEvent) : (s.withInbox l).regs = s.regs := rfl
@[simp] theorem State.withInbox_inbox (l : List PortEvent) : (s.withInbox l).inbox = l := rfl
@[simp] theorem State.withInbox_pending (l : List PortEvent) : (s.withInbox l).pending = s.pending := rfl
@[simp] theorem State.withInbox_delivered (l : List PortEvent) : (s.withInbox l).delivered = s.delivered := rfl

@[simp] theorem State.present_regs (cmds : List Instr) : (s.present cmds).regs = s.regs := rfl
@[simp] theorem State.present_inbox (cmds : List Instr) :
    (s.present cmds).inbox = s.inbox ++ cmds.map (fun i => .command (encode i)) := rfl
@[simp] theorem State.present_pending (cmds : List Instr) : (s.present cmds).pending = s.pending := rfl
@[simp] theorem State.present_delivered (cmds : List Instr) : (s.present cmds).delivered = s.delivered := rfl

@[simp] theorem State.clockEdge_regs (e : Edge) : (s.clockEdge e).regs = s.regs := rfl
@[simp] theorem State.clockEdge_inbox (e : Edge) : (s.clockEdge e).inbox = s.inbox ++ e.events := rfl
@[simp] theorem State.clockEdge_pending (e : Edge) : (s.clockEdge e).pending = s.pending := rfl
@[simp] theorem State.clockEdge_delivered (e : Edge) : (s.clockEdge e).delivered = s.delivered := rfl

@[simp] theorem State.withFetchWord_regs (n w : Nat) : (s.withFetchWord n w).regs = s.regs := rfl
@[simp] theorem State.withFetchWord_inbox (n w : Nat) :
    (s.withFetchWord n w).inbox = .command (tableWord n w) :: s.inbox := rfl
@[simp] theorem State.withFetchWord_pending (n w : Nat) : (s.withFetchWord n w).pending = s.pending := rfl
@[simp] theorem State.withFetchWord_delivered (n w : Nat) : (s.withFetchWord n w).delivered = s.delivered := rfl

@[simp] theorem State.deliver_regs : s.deliver.regs = s.regs := by
  unfold State.deliver; split <;> rfl
@[simp] theorem State.deliver_inbox : s.deliver.inbox = s.inbox := by
  unfold State.deliver; split <;> rfl
theorem State.deliver_nothing (h : s.pending = []) : s.deliver = s := by
  unfold State.deliver; rw [h]
theorem State.deliver_oldest {r : Response} {rest : List Response} (h : s.pending = r :: rest) :
    s.deliver = { s with pending := rest, delivered := s.delivered ++ [r.word] } := by
  unfold State.deliver; rw [h]

@[simp] theorem State.reset_regs : State.reset.regs = Memory.empty := rfl
@[simp] theorem State.reset_inbox : State.reset.inbox = [] := rfl
@[simp] theorem State.reset_pending : State.reset.pending = [] := rfl
@[simp] theorem State.reset_delivered : State.reset.delivered = [] := rfl

end Sys2Proof.Machine
end

