-- ==== Sys2Proof/Laws/Step.lean ====
section
/-! SUPPORT. What a command, a command word and a step can do, said once: later proofs cite these and do not unfold
`exec` or `step`. -/

namespace Sys2Proof.Machine

/-- A command changes the register array and appends one response, as `commandStep` says, and nothing else. -/
theorem exec_eq (i : Instr) (s : State) :
    exec i s = .next { s with regs := (commandStep s.regs i).1,
                              pending := s.pending ++ [(commandStep s.regs i).2] } := by
  cases i <;> rfl

/-- A command word changes the register array and appends one response, as `wordStep` says, and nothing else. -/
theorem runWord_eq (w : PortWord) (s : State) :
    runWord w s = .next { s with regs := (wordStep s.regs w).1, pending := s.pending ++ [(wordStep s.regs w).2] } := by
  unfold runWord wordStep
  cases decode w with
  | ok i => exact exec_eq i s
  | error e => rfl

theorem step_idle {s : State} (h : s.inbox = []) : step s = .next s := by unfold step; rw [h]

theorem step_command {s : State} {w : PortWord} {rest : List PortEvent} (h : s.inbox = .command w :: rest) :
    step s = runWord w (s.withInbox rest) := by unfold step; rw [h]

theorem step_take {s : State} {rest : List PortEvent} (h : s.inbox = .take :: rest) :
    step s = .next (s.withInbox rest).deliver := by unfold step; rw [h]

theorem step_reset {s : State} {rest : List PortEvent} (h : s.inbox = .reset :: rest) :
    step s = .next (s.withInbox rest).takeReset := by unfold step; rw [h]

/-- Everything a step can do. -/
theorem step_cases {s t : State} (h : step s = .next t) :
    (s.inbox = [] ∧ t = s) ∨
    (∃ w rest, s.inbox = .command w :: rest ∧
      t = ⟨(wordStep s.regs w).1, rest, s.pending ++ [(wordStep s.regs w).2], s.delivered⟩) ∨
    (∃ rest, s.inbox = .take :: rest ∧ t = (s.withInbox rest).deliver) ∨
    (∃ rest, s.inbox = .reset :: rest ∧ t = (s.withInbox rest).takeReset) := by
  match hs : s.inbox with
  | [] => rw [step_idle hs] at h; cases h; exact .inl ⟨rfl, rfl⟩
  | .command w :: rest =>
    rw [step_command hs, runWord_eq] at h; cases h; exact .inr (.inl ⟨w, rest, rfl, rfl⟩)
  | .take :: rest => rw [step_take hs] at h; cases h; exact .inr (.inr (.inl ⟨rest, rfl, rfl⟩))
  | .reset :: rest => rw [step_reset hs] at h; cases h; exact .inr (.inr (.inr ⟨rest, rfl, rfl⟩))

/-- A run of one step more begins with the step. -/
theorem run_succ {s t : State} (k : Nat) (h : step s = .next t) :
    Sys2Proof.core.run (k + 1) s = Sys2Proof.core.run k t := by
  have h' : Sys2Proof.core.step s = .next t := h
  simp only [Host.Core.run, h']

/-- A legal command keeps the canonical form of the register array. -/
theorem wf_commandStep {m : Memory} (i : Instr) (hm : m.wf = true) : (commandStep m i).1.wf = true := by
  cases i with
  | clear => exact Memory.wf_empty
  | update index value => exact Memory.wf_update _ _ hm
  | addhash hash => exact Memory.wf_addHash _ hm
  | nop | split | estimate | rdreg | rdalpha => exact hm

/-- A command word keeps the canonical form of the register array. -/
theorem wf_wordStep {m : Memory} (w : PortWord) (hm : m.wf = true) : (wordStep m w).1.wf = true := by
  unfold wordStep
  cases decode w with
  | ok i => exact wf_commandStep i hm
  | error e => exact hm

/-- A legal command keeps every register at most 51 unless it is an UPDATE with a larger value (R22, R85). -/
theorem atMostRankMax_commandStep {m : Memory} {i : Instr} (hm : m.AtMostRankMax)
    (hi : ∀ index value, i = .update index value → value.toNat ≤ Config.rankMax) :
    (commandStep m i).1.AtMostRankMax := by
  cases i with
  | clear => exact fun j => Nat.zero_le _
  | update index value =>
    intro j
    rw [commandStep, Memory.toNat_read_update]
    split
    · exact Nat.max_le.2 ⟨hm j, hi index value rfl⟩
    · exact hm j
  | addhash hash =>
    intro j
    rw [commandStep, Memory.toNat_read_addHash, rankValue_toNat, rank_toNat]
    have := clz_le (suffix hash)
    split
    · exact Nat.max_le.2 ⟨hm j, by unfold Config.rankMax; omega⟩
    · exact hm j
  | nop | split | estimate | rdreg | rdalpha => exact hm

end Sys2Proof.Machine
end

