-- ==== Sys2Proof/Tests/Slice0.lean ====
section
/-! SUPPORT. Tests: expected results from the spec's worked examples and vectors (`95_test_vectors.md`, named in each
comment), the smoke tests of well-formedness, and for each statement with hypotheses a witness that meets them. -/

namespace Sys2Proof.Tests

open Sys2Proof Sys2Proof.Machine

/-! ### Well-formedness: a line with an operand out of range is refused (R70) -/

theorem test_wf_split_hash : (Line.split (2 ^ 64)).wellFormed = false := by decide
theorem test_wf_addhash_hash : (Line.addhash (2 ^ 64)).wellFormed = false := by decide
theorem test_wf_update_index : (Line.update 16384 0).wellFormed = false := by decide
theorem test_wf_update_value : (Line.update 0 256).wellFormed = false := by decide
theorem test_wf_rdreg_index : (Line.rdreg 16384).wellFormed = false := by decide
theorem test_wf_update_largest : (Line.update 16383 255).assemble = some (.update 16383 255) := by decide

/-! ### Decoding: words written out from R61, R63, R64 (section 2.6, W1 to W21) -/

theorem test_decode_nop : decode 0x000000000000000000 = .ok .nop := by rfl
theorem test_decode_clear : decode 0x010000000000000000 = .ok .clear := by rfl
theorem test_decode_split : decode 0x02FFFFFFFFFFFFFFFF = .ok (.split 0xFFFFFFFFFFFFFFFF) := by rfl
theorem test_decode_update : decode 0x030000000000FF3FFF = .ok (.update 16383 255) := by rfl
theorem test_decode_addhash : decode 0x04DEADBEEFCAFEBABE = .ok (.addhash 0xDEADBEEFCAFEBABE) := by rfl
theorem test_decode_estimate : decode 0x050000000000000000 = .ok .estimate := by rfl
theorem test_decode_rdreg : decode 0x060000000000003FFF = .ok (.rdreg 16383) := by rfl
theorem test_decode_rdalpha : decode 0x070000000000000000 = .ok .rdalpha := by rfl
theorem test_decode_W2 : decode 0x000000000000000001 = .error .mustBeZero := by rfl
theorem test_decode_W7 : decode 0x030000000000004000 = .error .mustBeZero := by rfl
theorem test_decode_W9 : decode 0x030000000001000000 = .error .mustBeZero := by rfl
theorem test_decode_W15 : decode 0x060000000000004000 = .error .mustBeZero := by rfl
theorem test_decode_W18 : decode 0x080000000000000000 = .error .reservedOpcode := by rfl
theorem test_decode_W21 : decode 0xFFFFFFFFFFFFFFFFFF = .error .reservedOpcode := by rfl
/-- The same numbering through the host's interface: bits above the row's are 0. -/
theorem test_decodeTableWord : decodeTableWord 72 0x030000000000070005 = some (.update 5 7) := by rfl
/-- No two rows of the opcode table share a word: where both masks look, the patterns differ. -/
theorem test_rows_disjoint :
    opcodeTable.Pairwise (fun a b => a.pattern &&& b.mask ≠ b.pattern &&& a.mask) := by decide

/-! ### One step of each command -/

/-- The state after one step. -/
def after (s : State) : State :=
  match step s with
  | .next t => t
  | .fault _ => s
  | .refused _ => s

/-- The start state of section 2.2, the word `w` presented: `reg[5] = 3`. -/
def start (w : Nat) : State := ({ State.reset with regs := [(5, 3)] }).withFetchWord 72 w

/-- M1. -/
theorem test_step_nop : after (start 0x000000000000000000) = ⟨[(5, 3)], [], [⟨.ok, 0⟩], []⟩ := by decide
/-- M2. -/
theorem test_step_clear : after (start 0x010000000000000000) = ⟨[], [], [⟨.ok, 0⟩], []⟩ := by decide
/-- S23: the mask `2^50 - 1` would give rank 15. -/
theorem test_step_split : after (start 0x020014000080000000) = ⟨[(5, 3)], [], [⟨.ok, 0x130005⟩], []⟩ := by decide
/-- S17. -/
theorem test_split_S17 : splitData (rank 0x0000000FFFFFFFFF) (hashedAddress 0x0000000FFFFFFFFF) = 0xF0000 := by decide
/-- V8: the comparison is unsigned. -/
theorem test_step_update : after (start 0x030000000000800005) = ⟨[(5, 128)], [], [⟨.ok, 0⟩], []⟩ := by decide
/-- V1. -/
theorem test_step_update_lower : (after (start 0x030000000000020005)).regs = [(5, 3)] := by decide
/-- A3, beside `reg[5] = 3`. -/
theorem test_step_addhash : (after (start 0x04DEADBEEFCAFEBABE)).regs = [(5, 3), (14251, 2)] := by decide
/-- A5, first command. -/
theorem test_step_addhash_raises : (after (start 0x040014000080000000)).regs = [(5, 19)] := by decide
/-- M3. -/
theorem test_step_rdreg : after (start 0x060000000000000005) = ⟨[(5, 3)], [], [⟨.ok, 3⟩], []⟩ := by decide
/-- M4. -/
theorem test_step_rdreg_zero : (after (start 0x060000000000000006)).pending = [⟨.ok, 0⟩] := by decide
/-- M6. -/
theorem test_step_rdalpha : (after (start 0x070000000000000000)).pending = [⟨.ok, 0x3FE714801FBCCD72⟩] := by decide
/-- Program P4, step 5. -/
theorem test_step_illegal :
    after (start 0x030000000001010048) = ⟨[(5, 3)], [], [⟨.illegalCmd, 0⟩], []⟩ := by decide
/-- R62 with M6's response word. -/
theorem test_deliver : (State.deliver ⟨[], [], [⟨.ok, 0x3FE714801FBCCD72⟩], []⟩).delivered = [0x003FE714801FBCCD72] := by
  decide

/-! ### The estimator -/

/-- R26 and section 1.8. -/
theorem test_alpha : alphaOf 16384 = 0x3FE714801FBCCD72 := by decide +kernel
/-- R104: the patterns of the table are the nearest to the literals. -/
theorem test_coefficients :
    [C1, C2, C3, C4, C5, C6, C7, C8] =
      [F64.lit true 370393911 9, F64.lit false 70471823 9, F64.lit false 17393686 8, F64.lit false 16339839 8,
        F64.lit true 9237745 8, F64.lit false 3738027 8, F64.lit true 5384159 9, F64.lit false 42419 8] := by
  decide +kernel
/-- R107's table at 16383. -/
theorem test_logarithm : ln64CR (F64.u2f 16383) = 0x402368729F0AF287 := by decide +kernel
/-- `93_implementation_defined.md` G6: the argument at which a library logarithm is not correctly rounded. -/
theorem test_logarithm_G6 : ln64CR (F64.u2f 9170) = 0x40223F54A1C504C1 := by decide +kernel
/-- The trace of section 2.4 at `ez = 16382`. -/
theorem test_beta_trace : beta ln64CR 16382 = 0xC0B1D2A7EFA2E793 := by decide +kernel
/-- Vector E4 from its sum. -/
theorem test_quotient_E4 : quotient ln64CR 16382 0x40CFFF8000000000 = 0x3FFFFDAEE21A58E0 := by decide +kernel
/-- Vector E16 from its sum: the quotient depends on the last bits of the sum. -/
theorem test_quotient_E16 : quotient ln64CR 8192 0x40C0000000000002 = 0x40CF290FFA540583 := by decide +kernel
/-- Vector E8 from its sum, whatever `LN64` is. -/
theorem test_estimate_E8 : convert (quotient ln64 0 0x3DB0000000000000) = ⟨.ok, 0xB8A400FDE66B9000⟩ := by decide +kernel
/-- Program P2, step 8, from its sum. -/
theorem test_estimate_P2 : convert (quotient ln64CR 16381 0x40CFFE9900000000) = ⟨.ok, 2⟩ := by decide +kernel
/-- R101, in small: `0.5 + 0.25 + 1.0`. -/
theorem test_partialSum : partialSum (fun i => if i = 2 then 0 else BitVec.ofNat 8 (i + 1)) 3 = 0x3FFC000000000000 := by
  decide +kernel
/-- R110 (a), G3: `(-0.0) + (+0.0) = +0.0`. -/
theorem test_minus_zero_plus_zero : F64.fadd 0x8000000000000000 0 = 0 := by decide +kernel

/-! ### A sketch in which every register holds one value -/

/-- Every register `v`. -/
def uniform (v : RegValue) : Memory := (List.range' 0 16384).map (fun i => (i, v))

theorem read_uniform_from (v : RegValue) (n lo a : Nat) (h1 : lo ≤ a) (h2 : a < lo + n) :
    Memory.read ((List.range' lo n).map (fun i => (i, v))) a = v := by
  induction n generalizing lo with
  | zero => omega
  | succ n ih =>
    rw [List.range'_succ, List.map_cons, Memory.read]
    split
    · rfl
    · exact ih (lo + 1) (by omega) (by omega)

theorem read_uniform (v : RegValue) {a : Nat} (h : a < Config.numRegs) : (uniform v).read a = v :=
  read_uniform_from v 16384 0 a (Nat.zero_le a) (by rw [Nat.zero_add]; exact h)

theorem reg_uniform (v : RegValue) (i : Index) : (uniform v).read i.toNat = v := read_uniform v i.isLt

theorem exactSum_const (R : Nat) (v : RegValue) (k : Nat) : exactSum R (fun _ => v) k = k * 2 ^ (R - v.toNat) := by
  induction k with
  | zero => rw [exactSum, Nat.zero_mul]
  | succ k ih => rw [exactSum, ih, Nat.add_mul, Nat.one_mul]

theorem zerosBelow_const {v : RegValue} (h : v ≠ 0) (k : Nat) : zerosBelow (fun _ => v) k = 0 := by
  induction k with
  | zero => rfl
  | succ k ih => rw [zerosBelow, ih, if_neg h]

/-- Vector E9 on the whole array: every register 51 is out of range. -/
theorem test_estimate_E9 : estimate (uniform 51) = ⟨.estOor, 0xFFFFFFFFFFFFFFFF⟩ := by
  have hs : harmonicSum (fun _ => 51) = F64.roundRatio false (16384 * 2 ^ (1074 - 51)) 1 := by
    have hx : exactSum 51 (fun _ => 51) Config.numRegs = 16384 := exactSum_const 51 51 Config.numRegs
    have h := partialSum_eq_of_exact (R := 51) (f := fun _ => 51) (k := Config.numRegs) (by decide)
      (fun _ _ => Nat.le_refl _) (by rw [hx]; decide)
    rw [hx] at h
    exact h
  have hz : zeroCount (fun _ => 51) = 0 := zerosBelow_const (by decide) _
  rw [estimate, estimateWith_congr ln64 (f := (uniform 51).read) (g := fun _ => 51) fun i hi => read_uniform 51 hi,
    estimateWith, hz, hs]
  decide +kernel

/-! ### Witnesses: the hypotheses of each statement are met together -/

/-- A state with events to come, a response to deliver and one register set. -/
def busy (e : PortEvent) : State := ⟨[(5, 3)], [e], [⟨.ok, 7⟩], [0]⟩

theorem witness_DecoderReadsEveryWord : (0xFF : Nat) < 2 ^ 8 ∧ 2 ^ 64 - 1 < 2 ^ 64 ∧ 0x08 ≤ 0xFF := by decide
theorem witness_DecoderReadsEveryWord_update_boundary :
    decode (BitVec.ofNat 72 (3 * 2 ^ 64 + 0xFF3FFF)) = .ok (.update 16383 255) ∧
      decode (BitVec.ofNat 72 (3 * 2 ^ 64 + 0x4000)) = .error .mustBeZero := ⟨rfl, rfl⟩
theorem witness_DecoderReadsEveryWord_rdreg_boundary :
    decode (BitVec.ofNat 72 (6 * 2 ^ 64 + 16383)) = .ok (.rdreg 16383) ∧
      decode (BitVec.ofNat 72 (6 * 2 ^ 64 + 16384)) = .error .mustBeZero := ⟨rfl, rfl⟩
theorem witness_DecoderReadsEveryWord_opcode_boundary :
    decode (BitVec.ofNat 72 (7 * 2 ^ 64)) = .ok .rdalpha ∧
      decode (BitVec.ofNat 72 (8 * 2 ^ 64)) = .error .reservedOpcode := ⟨rfl, rfl⟩
theorem witness_EveryLegalWordIsTheEncoding : ∃ w i, decode w = .ok i := ⟨0x060000000000003FFF, .rdreg 16383, rfl⟩
theorem witness_WordSpellsRowExactlyWhenItDecodesToIt :
    ∃ r ∈ opcodeTable, r.spelledBy 0x030000000000FF3FFF = true := by decide
theorem witness_LinesInRangeAssemble :
    (Line.update 16383 255).wellFormed = true ∧ (Line.update 16384 255).wellFormed = false := by decide
theorem witness_StepRunsTheDecodedCommand :
    (busy (.command 0x060000000000000005)).inbox = [.command 0x060000000000000005] ∧
      decode 0x060000000000000005 = .ok (.rdreg 5) := ⟨rfl, rfl⟩
theorem witness_IllegalWordIsAnsweredAndChangesNoRegister :
    (busy (.command 0x090000000000000000)).inbox = [.command 0x090000000000000000] ∧
      decode 0x090000000000000000 = .error .reservedOpcode := ⟨rfl, rfl⟩
theorem witness_IdleBlockHoldsItsState : (⟨[(5, 3)], [], [⟨.ok, 7⟩], [0]⟩ : State).inbox = [] := rfl
theorem witness_ResetEmptiesTheSketchAndDropsResponses : (busy .reset).inbox = [.reset] := rfl
theorem witness_ResponsesAreDeliveredInOrder :
    (busy .take).inbox = List.replicate 1 .take ++ [] ∧
      (⟨[(5, 3)], [.take, .take, .reset], [⟨.ok, 7⟩], []⟩ : State).inbox = List.replicate 2 .take ++ [.reset] := by decide
theorem witness_EdgeEventsFollowTheHandshakes :
    (Edge.events ⟨true, true, true, 5, true, true⟩ = [.reset]) ∧
      (Edge.events ⟨false, true, true, 5, true, true⟩ = [.take, .command 5]) ∧
      (Edge.events ⟨false, true, false, 5, false, true⟩ = []) := by decide
theorem witness_EveryStepKeepsTheCanonicalForm :
    (busy (.command 0x030000000000070005)).Inv ∧ ∃ t, step (busy (.command 0x030000000000070005)) = .next t :=
  ⟨rfl, _, rfl⟩
theorem witness_ArraysEqualWhenTheyAgreeEverywhere :
    ∃ m n : Memory, m.wf = true ∧ n.wf = true ∧ m ≠ [] ∧ ∀ i : Index, m.read i.toNat = n.read i.toNat :=
  ⟨[(5, 3)], [(5, 3)], rfl, rfl, by decide, fun _ => rfl⟩
theorem witness_RunOverCommandsIsTheFoldOfStep :
    (busy (.command 0x030000000000070005)).inbox = [0x030000000000070005].map PortEvent.command ++ [] := rfl
theorem witness_CommandSeesTheRegistersAlone :
    ∃ s s' : State, s ≠ s' ∧ ∀ i : Index, s.reg i = s'.reg i :=
  ⟨busy .take, busy .reset, by decide, fun _ => rfl⟩
theorem witness_NopDoesNothing : (1 : Word64) ≠ 0 := by decide
theorem witness_RdregAnswersTheRegister : 16384 ≤ (16384 : Word64).toNat := by decide
theorem witness_RdalphaAnswersAlpha : (0x8000000000000000 : Word64) ≠ 0 := by decide
theorem witness_UpdateRaisesOneRegister :
    (0 : Nat) ≠ (16383 : Index).toNat ∧ (3 : RegValue).toNat ≤ ((start 0).reg 5).toNat ∧
      ¬ (4 : RegValue).toNat ≤ ((start 0).reg 5).toNat := by decide
theorem witness_AddhashRaisesTheRegisterOfTheHash : (0 : Nat) ≠ (0xFFFFFFFFFFFFFFFF : Word64).toNat / 2 ^ 50 := by decide
theorem witness_StatusSaysWhatWasDone :
    decode 0x08FFFFFFFFFFFFFFFF = .error .reservedOpcode ∧ decode 0x050000000000000000 = .ok .estimate := ⟨rfl, rfl⟩
theorem witness_RankCountsLeadingZeros_first_one : (0x0002000000000000 : Word64).getLsbD (49 - 0) = true := by decide
theorem witness_RankCountsLeadingZeros_last_one :
    (∀ j < 49, (1 : Word64).getLsbD (49 - j) = false) ∧ (1 : Word64).getLsbD (49 - 49) = true := by decide
theorem witness_RankCountsLeadingZeros_none : ∀ j < 50, (0xFFFC000000000000 : Word64).getLsbD j = false := by decide
theorem witness_RankIsOneToFiftyOne :
    (0x0002000000000000 : Word64).getLsbD 49 = true ∧ (0x0004000000000000 : Word64).toNat % 2 ^ 50 = 0 := by decide
theorem witness_UpdateLawsHold : Memory.wf [(0, 1), (16383, 255)] = true := by decide
theorem witness_RegistersNeverDecreaseOutsideClearAndReset :
    (∃ t, step (busy (.command 0x030000000000070005)) = .next t) ∧
      (∀ rest, (busy (.command 0x030000000000070005)).inbox ≠ .reset :: rest) ∧
      (∀ w rest, (busy (.command 0x030000000000070005)).inbox = .command w :: rest → decode w ≠ .ok .clear) := by
  refine ⟨⟨_, rfl⟩, ?_, ?_⟩
  · intro rest h; cases h
  · intro w rest h h'; cases h; cases h'
theorem witness_OnlyClearChangesTwoRegisters :
    ∃ t, runWord 0x030000000000070005 State.reset = .next t ∧
      decode (0x030000000000070005 : PortWord) ≠ .ok .clear ∧ t.regs.read 5 ≠ State.reset.regs.read 5 := by
  refine ⟨_, rfl, ?_, ?_⟩
  · intro h; cases h
  · decide
theorem witness_RanksStayAtMostFiftyOne :
    (∀ w i v, PortEvent.command w ∈ [PortEvent.command 0x030000000000330005] → decode w = .ok (.update i v) →
        v.toNat ≤ 51) ∧
      ∃ t, Sys2Proof.core.run 1 { State.reset with inbox := [.command 0x030000000000330005] } = .next t := by
  refine ⟨fun w i v hw hd => ?_, _, rfl⟩
  simp only [List.mem_singleton, PortEvent.command.injEq] at hw
  subst hw
  cases hd
  decide
theorem witness_StepKeepsRanksAtMostFiftyOne :
    Memory.AtMostRankMax [(5, 51)] ∧ decode 0x030000000000330006 = .ok (.update 6 51) ∧ (51 : RegValue).toNat ≤ 51 ∧
      step ⟨[(5, 51)], [.command 0x030000000000330006], [], []⟩ = .next ⟨[(5, 51), (6, 51)], [], [⟨.ok, 0⟩], []⟩ := by
  refine ⟨fun i => ?_, rfl, by decide, rfl⟩
  simp only [Memory.read]
  split <;> decide
theorem witness_MergeLawsHold :
    Memory.wf [(5, 3), (9, 1)] = true ∧ Memory.wf [(5, 2), (9, 4), (100, 7)] = true ∧ Memory.wf [] = true := by decide
theorem witness_MergeIsIngestingBothStreams : [(2 : Word64), 1].Perm ([1] ++ [2]) := by decide
theorem witness_MergeCommandsLeaveTheMaximum :
    ∃ (s : State) (src : List RegValue) (cmds : List Instr), src.length = 16384 ∧ s.inbox = [] ∧
      cmds.Perm (mergeCommands src) :=
  ⟨State.reset, List.replicate 16384 7, mergeCommands (List.replicate 16384 7), List.length_replicate, rfl, .refl _⟩
theorem witness_LoadLeavesTheSource :
    ∃ (s : State) (src : List RegValue), src.length = 16384 ∧ s.inbox = [] ∧ s.regs ≠ [] :=
  ⟨⟨[(5, 3)], [], [], []⟩, List.replicate 16384 7, List.length_replicate, rfl, by decide⟩
theorem witness_DumpAnswersAlphaAndEveryRegister : (⟨[(5, 3)], [], [], []⟩ : State).inbox = [] := rfl
theorem witness_LoadOfDumpReproducesTheArray :
    State.Inv ⟨[(5, 3), (16383, 255)], [], [⟨.ok, 7⟩], []⟩ ∧
      (⟨[(5, 3), (16383, 255)], [], [⟨.ok, 7⟩], []⟩ : State).inbox = [] ∧ (⟨[(9, 8)], [], [], []⟩ : State).inbox = [] :=
  ⟨rfl, rfl, rfl⟩
theorem witness_OperationsRoundOnceToNearestEven : F64.isFinite C1 = true ∧ F64.isFinite F64.one = true := by decide
/-- The overflow case: the largest finite number added to itself. -/
theorem witness_OperationsRoundOnceToNearestEven_overflow :
    F64.isFinite 0x7FEFFFFFFFFFFFFF = true ∧
      2 ^ 1024 - 2 ^ 970 ≤ |F64.toRat 0x7FEFFFFFFFFFFFFF + F64.toRat 0x7FEFFFFFFFFFFFFF| := by decide +kernel
theorem witness_NaNAndInfinityFollowIeee_signs :
    F64.toRat F64.one + F64.toRat 0xBFF0000000000000 = 0 ∧ F64.toRat 0x8000000000000000 + F64.toRat 0x8000000000000000 = 0 ∧
      F64.toRat F64.one - F64.toRat F64.one = 0 ∧ F64.isFinite 0xBFF0000000000000 = true := by decide +kernel
theorem witness_NaNAndInfinityFollowIeee :
    F64.isNaN 0x7FF8000000000000 = true ∧ F64.isFinite F64.one = true ∧ F64.isFinite 0x8000000000000000 = true ∧
      F64.toRat 0x8000000000000000 = 0 ∧ F64.toRat F64.plusZero = 0 ∧ F64.toRat F64.one ≠ 0 := by decide +kernel
theorem witness_ConversionsAreExact : (9007199254740992 : Nat) ≤ 2 ^ 53 := by decide
theorem witness_LogarithmIsExactAtOneAndFaithful : 2 ≤ 16385 ∧ 16385 ≤ 16385 := by decide
theorem witness_DefaultLogarithmIsCorrectlyRounded : 1 ≤ 1 ∧ 1 ≤ 16385 := by decide
theorem witness_SumIsExactInAnyOrderUpToThirtyNine :
    (∀ i : Index, (State.reg ⟨uniform 39, [], [], []⟩ i).toNat ≤ 39) ∧
      (List.range 16384).reverse.Perm (List.range 16384) :=
  ⟨fun i => by rw [State.reg, reg_uniform]; decide, List.reverse_perm _⟩
/-- A chain of adders over the first `k + 1` registers. -/
def chain : Nat → AdderTree
  | 0 => .term 0
  | k + 1 => .adder (chain k) (.term (k + 1))
theorem indices_chain (k : Nat) : (chain k).indices = List.range (k + 1) := by
  induction k with
  | zero => rfl
  | succ k ih => rw [chain, AdderTree.indices, ih, AdderTree.indices, ← List.range_succ]
theorem witness_SumIsExactInAnyOrderUpToThirtyNine_tree :
    ∃ tree : AdderTree, tree.indices.Perm (List.range 16384) := ⟨chain 16383, .of_eq (indices_chain 16383)⟩
theorem witness_EstimateIsAFunctionOfTheRegisters :
    ∀ i : Index, (busy .take).reg i = (busy .reset).reg i := fun _ => rfl
theorem witness_EmptySketchEstimatesZero : ∀ i : Index, State.reset.reg i = 0 := fun _ => rfl
theorem witness_UniformSketchesHaveTheirEstimates (v : RegValue) :
    ∀ i : Index, State.reg ⟨uniform v, [], [], []⟩ i = v := fun i => reg_uniform v i
theorem witness_OneNonzeroRegisterEstimatesZero :
    State.reg ⟨[(5, 51)], [], [], []⟩ 5 ≠ 0 ∧ ∀ j : Index, j ≠ 5 → State.reg ⟨[(5, 51)], [], [], []⟩ j = 0 := by
  refine ⟨by decide, fun j hj => ?_⟩
  have : j.toNat ≠ 5 := fun h => hj (BitVec.eq_of_toNat_eq h)
  simp [State.reg, Memory.read, this]
theorem witness_TwoNonzeroRegistersEstimateOne :
    (0 : Index) ≠ 16383 ∧ State.reg ⟨[(0, 255), (16383, 1)], [], [], []⟩ 0 ≠ 0 ∧
      State.reg ⟨[(0, 255), (16383, 1)], [], [], []⟩ 16383 ≠ 0 ∧
      ∀ k : Index, k ≠ 0 → k ≠ 16383 → State.reg ⟨[(0, 255), (16383, 1)], [], [], []⟩ k = 0 := by
  refine ⟨by decide, by decide, by decide, fun k h0 h1 => ?_⟩
  have e0 : k.toNat ≠ 0 := fun h => h0 (BitVec.eq_of_toNat_eq h)
  have e1 : k.toNat ≠ 16383 := fun h => h1 (BitVec.eq_of_toNat_eq h)
  simp [State.reg, Memory.read, e0, e1]
theorem witness_OutOfRangeOnlyIfEveryRegisterIsLarge :
    exec .estimate ⟨uniform 51, [], [], []⟩ =
      .next { (⟨uniform 51, [], [], []⟩ : State) with pending := [] ++ [⟨.estOor, 0xFFFFFFFFFFFFFFFF⟩] } := by
  rw [exec_eq, commandStep, test_estimate_E9]

end Sys2Proof.Tests
end

section
/-! ## Family 00_scope: the run over a command stream

O18: one step per word, by induction over the stream (`00_scope.md` rule R13, `20_memory.md` rule R47). -/

namespace Sys2Proof.Machine

/-- The fold answers every word of the stream exactly once (R62). -/
theorem length_streamRun (m : Memory) (ws : List PortWord) : (streamRun m ws).2.length = ws.length := by
  induction ws generalizing m with
  | nil => rfl
  | cons w ws ih => exact congrArg Nat.succ (ih _)

/-- The step that meets a command word does to the array what `wordStep` says, and drops the word from the inbox. -/
theorem step_command_eq {s : State} {w : PortWord} {rest : List PortEvent} (h : s.inbox = .command w :: rest) :
    step s = .next ⟨(wordStep s.regs w).1, rest, s.pending ++ [(wordStep s.regs w).2], s.delivered⟩ := by
  rw [step_command h, runWord_eq]
  rfl

/-- A run over the command words at the front of the inbox is the fold of `wordStep` over them (R13, R47). -/
theorem run_commands (ws : List PortWord) (rest : List PortEvent) (s : State)
    (h : s.inbox = ws.map .command ++ rest) :
    Sys2Proof.core.run ws.length s = .next ⟨(streamRun s.regs ws).1, rest,
      s.pending ++ (streamRun s.regs ws).2, s.delivered⟩ := by
  induction ws generalizing s with
  | nil =>
    obtain ⟨regs, inbox, pending, delivered⟩ := s
    obtain rfl : inbox = rest := h
    simp [Host.Core.run, streamRun]
  | cons w ws ih =>
    rw [List.length_cons, run_succ _ (step_command_eq h), ih _ rfl]
    simp [streamRun]

end Sys2Proof.Machine

open Sys2Proof Sys2Proof.Machine

/-- Settles O18: the run's induction over the stream, with one response counted for each word. -/
theorem runOverCommandsIsTheFoldOfStep : Obligations.RunOverCommandsIsTheFoldOfStep :=
  fun s ws rest h => ⟨length_streamRun s.regs ws, run_commands ws rest s h⟩

end

section
/-! ## Family 00_scope: the rational value of a pattern

Sign, magnitude and neighbours of a pattern, read in the rational number it stands for (`00_scope.md` rule R11). -/

namespace Sys2Proof.Machine.F64

@[simp] theorem toRat_neg (x : F64) : toRat (neg x) = -toRat x := by
  rw [toRat, units_neg, Int.cast_neg, neg_div, toRat]

@[simp] theorem fraction_neg (x : F64) : fraction (neg x) = fraction x := by
  rw [fraction_eq, fraction_eq, low_neg]

@[simp] theorem neg_neg_eq (x : F64) : neg (neg x) = x := ext_sign_low (by simp) (by simp)

/-- A rational number with a sign put before it. -/
def signed (n : Bool) (r : ℚ) : ℚ := if n then -r else r

@[simp] theorem signed_false (r : ℚ) : signed false r = r := rfl

@[simp] theorem signed_true (r : ℚ) : signed true r = -r := rfl

@[simp] theorem signed_zero (n : Bool) : signed n 0 = 0 := by cases n <;> simp

theorem signed_mul_signed (m n : Bool) (r t : ℚ) : signed m r * signed n t = signed (m != n) (r * t) := by
  cases m <;> cases n <;> simp

theorem signed_div_signed (m n : Bool) (r t : ℚ) : signed m r / signed n t = signed (m != n) (r / t) := by
  cases m <;> cases n <;> simp [neg_div, div_neg]

theorem toRat_eq_signed (x : F64) : toRat x = signed (sign x) ((magnitude x : ℚ) / 2 ^ 1074) := by
  rw [toRat, units]
  cases sign x <;> simp [neg_div]

/-- The unit of a pattern's value, `2^-1074`, has a positive inverse. -/
theorem unit_pos : (0 : ℚ) < 2 ^ 1074 := pow_pos two_pos _

/-- The distance of a pattern's value from a number, both in units of `2^-1074`. -/
theorem abs_toRat_sub (x : F64) (r : ℚ) : |toRat x - r / 2 ^ 1074| = |(units x : ℚ) - r| / 2 ^ 1074 := by
  rw [toRat, ← sub_div, abs_div, abs_of_pos unit_pos]

/-- No pattern's value lies strictly between two neighbours. -/
theorem units_le_or_ge (x : F64) (w : Nat) : units x ≤ lowUnits w ∨ (lowUnits (w + 1) : Int) ≤ units x := by
  rw [units, magnitude_eq]
  split
  · exact .inl (by omega)
  · rcases Nat.lt_or_ge w (low x) with h | h
    · exact .inr (Int.ofNat_le.2 (lowUnits_strictMono.monotone h))
    · exact .inl (Int.ofNat_le.2 (lowUnits_strictMono.monotone h))

end Sys2Proof.Machine.F64
end

section
/-! ## Family 00_scope: exact conversions

O47: `u2f` and `pow2neg` have their magnitudes by the laws of `Laws/FloatOps`; what is left is the unit `2^-1074`. -/

namespace Sys2Proof.Machine.F64

theorem toRat_u2f {n : Nat} (h : n ≤ 2 ^ 53) : toRat (u2f n) = n := by
  rw [toRat_eq_signed, sign_u2f h, signed_false, magnitude_u2f h, Nat.cast_mul, Nat.cast_pow, Nat.cast_ofNat]
  exact mul_div_cancel_right₀ _ unit_pos.ne'

theorem toRat_pow2neg (r : RegValue) : toRat (pow2neg r) = 1 / 2 ^ r.toNat := by
  have hr : r.toNat ≤ 1074 := by omega
  rw [toRat_eq_signed, sign_pow2neg, signed_false, magnitude_pow2neg, Nat.cast_pow, Nat.cast_ofNat,
    pow_sub₀ _ two_ne_zero hr, one_div]
  exact mul_div_cancel_left₀ _ unit_pos.ne'

end Sys2Proof.Machine.F64

open Sys2Proof Sys2Proof.Machine

/-- Settles O47: both conversions are finite and their magnitudes are exact. -/
theorem conversionsAreExact : Obligations.ConversionsAreExact :=
  ⟨fun _ h => ⟨F64.isFinite_u2f h, F64.toRat_u2f h⟩, fun r => ⟨F64.isFinite_pow2neg r, F64.toRat_pow2neg r⟩⟩

end

section
/-! ## Family 00_scope: one rounding, to nearest even

O45. `roundLow_spec` says which neighbours the exact ratio lies between and which of them `roundRatio` answers. Read in
rational numbers that is `Rounded` for the sign `+`; inverting the sign of value and pattern together gives the other
sign; and each operation is `roundRatio` of its exact result (R11). -/

namespace Sys2Proof.Machine.F64

/-! ### Nearest even -/

/-- Of two neighbours the one on `q`'s side of the midpoint is nearest to `q`, and something else is as near only
from the midpoint. -/
theorem nearest_of_neighbours {lo hi q x z : ℚ} (hlo : lo ≤ q) (hhi : q < hi)
    (hx : (x = lo ∧ 2 * q ≤ lo + hi) ∨ (x = hi ∧ lo + hi ≤ 2 * q)) (hz : z ≤ lo ∨ hi ≤ z) :
    |x - q| ≤ |z - q| ∧ (|x - q| = |z - q| → z ≠ x → 2 * q = lo + hi) := by
  have hzabs : |z - q| = q - z ∧ z ≤ lo ∨ |z - q| = z - q ∧ hi ≤ z := by
    rcases hz with h | h
    · exact .inl ⟨by rw [abs_of_nonpos (by linarith)]; ring, h⟩
    · exact .inr ⟨abs_of_nonneg (by linarith), h⟩
  rcases hx with ⟨rfl, hmid⟩ | ⟨rfl, hmid⟩
  · rw [abs_of_nonpos (by linarith : x - q ≤ 0)]
    rcases hzabs with ⟨e, h⟩ | ⟨e, h⟩ <;> rw [e]
    · exact ⟨by linarith, fun heq hne => absurd (by linarith) hne⟩
    · exact ⟨by linarith, fun heq _ => by linarith⟩
  · rw [abs_of_nonneg (by linarith : 0 ≤ x - q)]
    rcases hzabs with ⟨e, h⟩ | ⟨e, h⟩ <;> rw [e]
    · exact ⟨by linarith, fun heq _ => by linarith⟩
    · exact ⟨by linarith, fun heq hne => absurd (by linarith) hne⟩

/-- `roundLow_spec` in rational numbers: the neighbours of the ratio, which of them is answered, and that it is the even
one at the midpoint. -/
theorem roundLow_spec_rat (num : Nat) {den : Nat} (hden : 0 < den) :
    ∃ base, (lowUnits base : ℚ) ≤ num / den ∧ (num / den : ℚ) < lowUnits (base + 1) ∧
      (((lowUnits (roundLow num den) : ℚ) = lowUnits base ∧
          2 * (num / den : ℚ) ≤ lowUnits base + lowUnits (base + 1)) ∨
       ((lowUnits (roundLow num den) : ℚ) = lowUnits (base + 1) ∧
          (lowUnits base + lowUnits (base + 1) : ℚ) ≤ 2 * (num / den))) ∧
      (2 * (num / den : ℚ) = lowUnits base + lowUnits (base + 1) → roundLow num den % 2 = 0) := by
  obtain ⟨base, hlo, hhi, hside, htie⟩ := roundLow_spec num hden
  have hden' : (0 : ℚ) < den := Nat.cast_pos.2 hden
  refine ⟨base, ?_, ?_, ?_, fun h => htie ?_⟩
  · rw [le_div_iff₀ hden']; exact_mod_cast hlo
  · rw [div_lt_iff₀ hden']; exact_mod_cast hhi
  · rw [← mul_div_assoc, div_le_iff₀ hden', le_div_iff₀ hden']
    rcases hside with ⟨h, hmid⟩ | ⟨h, hmid⟩
    · exact .inl ⟨by rw [h], by exact_mod_cast hmid⟩
    · exact .inr ⟨by rw [h], by exact_mod_cast hmid⟩
  · rw [← mul_div_assoc, div_eq_iff hden'.ne'] at h
    exact_mod_cast h

/-- Without overflow a rounded ratio is the nearest pattern, the even one on a tie. -/
theorem nearestEven_roundRatio {num den : Nat} (hden : 0 < den) (h : roundLow num den < 2047 * 2 ^ 52) :
    NearestEven ((num / den : ℚ) / 2 ^ 1074) (roundRatio false num den) := by
  refine ⟨isFinite_roundRatio h, fun y _ => ?_⟩
  obtain ⟨base, hlo, hhi, hside, htie⟩ := roundLow_spec_rat num hden
  have hx : (units (roundRatio false num den) : ℚ) = lowUnits (roundLow num den) := by
    rw [units, sign_roundRatio h, if_neg Bool.false_ne_true, magnitude_roundRatio h, Int.cast_natCast]
  rw [← hx] at hside
  have hy : (units y : ℚ) ≤ lowUnits base ∨ (lowUnits (base + 1) : ℚ) ≤ units y := by
    exact_mod_cast units_le_or_ge y base
  obtain ⟨hle, heq⟩ := nearest_of_neighbours hlo hhi hside hy
  rw [abs_toRat_sub, abs_toRat_sub, div_le_div_iff_of_pos_right unit_pos, div_left_inj' unit_pos.ne']
  refine ⟨hle, fun hdist hne => ?_⟩
  have hune : (units y : ℚ) ≠ units (roundRatio false num den) := fun e => hne (by rw [toRat, toRat, e])
  have heven := htie (heq hdist hune)
  rw [fraction_eq, low_roundRatio h]
  omega

/-! ### Overflow -/

/-- A ratio rounds to an odd pattern or below exactly when it is below the midpoint above that pattern. -/
theorem roundLow_le_odd_iff {num den w : Nat} (hden : 0 < den) (hodd : w % 2 = 1) :
    roundLow num den ≤ w ↔ 2 * num < (lowUnits w + lowUnits (w + 1)) * den := by
  obtain ⟨base, hlo, hhi, hside, htie⟩ := roundLow_spec num hden
  have hmono : ∀ {u v : Nat}, u ≤ v → lowUnits u * den ≤ lowUnits v * den := fun h =>
    Nat.mul_le_mul_right _ (lowUnits_strictMono.monotone h)
  rw [Nat.add_mul] at hside htie ⊢
  rcases Nat.lt_trichotomy base w with h | rfl | h
  · have h1 := hmono (u := base + 1) (v := w) h
    have h2 := hmono (v := w + 1) (Nat.le_succ w)
    omega
  · omega
  · have h1 := hmono (u := w + 1) (v := base) h
    have h2 := hmono (v := w + 1) (Nat.le_succ w)
    omega

/-- The largest finite magnitude and what would come after it, added up. -/
theorem lowUnits_around_overflow :
    lowUnits (2047 * 2 ^ 52 - 1) + lowUnits (2047 * 2 ^ 52) = 2 * ((2 ^ 54 - 1) * 2 ^ 2044) := by
  have hlargest := lowUnits_of_normal (shift := 2045) (m := 2 ^ 53 - 1) (by omega) (by omega)
  have hnext := lowUnits_of_normal (shift := 2045) (m := 2 ^ 53) (by omega) (Nat.le_refl _)
  rw [show 2045 * 2 ^ 52 + (2 ^ 53 - 1) = 2047 * 2 ^ 52 - 1 by omega] at hlargest
  rw [show 2045 * 2 ^ 52 + 2 ^ 53 = 2047 * 2 ^ 52 by omega] at hnext
  rw [hlargest, hnext, pow_succ 2 2044]
  generalize 2 ^ 2044 = x
  omega

/-- `2^1024 - 2^970` in units of `2^-1074`. -/
theorem overflow_bound_units : ((2 ^ 1024 - 2 ^ 970) * 2 ^ 1074 : ℚ) = (2 ^ 54 - 1) * 2 ^ 2044 := by
  rw [show 1024 = 54 + 970 from rfl, show 2044 = 970 + 1074 from rfl, pow_add, pow_add]
  generalize (2 : ℚ) ^ 970 = x
  generalize (2 : ℚ) ^ 1074 = y
  ring

/-- No overflow exactly below `2^1024 - 2^970`, the midpoint above the largest finite number. -/
theorem roundLow_lt_iff {num den : Nat} (hden : 0 < den) :
    roundLow num den < 2047 * 2 ^ 52 ↔ (num / den : ℚ) / 2 ^ 1074 < 2 ^ 1024 - 2 ^ 970 := by
  have hunits : roundLow num den ≤ 2047 * 2 ^ 52 - 1 ↔ num < (2 ^ 54 - 1) * 2 ^ 2044 * den := by
    rw [roundLow_le_odd_iff hden (by omega), Nat.sub_add_cancel (by omega), lowUnits_around_overflow, Nat.mul_assoc]
    exact Nat.mul_lt_mul_left two_pos
  have hcast : ((2 ^ 54 - 1) * 2 ^ 2044 * den : ℚ) = ((2 ^ 54 - 1) * 2 ^ 2044 * den : Nat) := by
    rw [Nat.cast_mul, Nat.cast_mul, Nat.cast_pow, Nat.cast_ofNat]
    norm_num only
  rw [div_lt_iff₀ unit_pos, div_lt_iff₀ (Nat.cast_pos.2 hden), overflow_bound_units, hcast, Nat.cast_lt, ← hunits]
  omega

/-! ### Rounding with a sign -/

theorem roundRatio_true (num den : Nat) : roundRatio true num den = neg (roundRatio false num den) := by
  by_cases h : roundLow num den < 2047 * 2 ^ 52
  · exact ext_sign_low (by simp) (by rw [low_neg, low_roundRatio h, low_roundRatio h])
  · rw [roundRatio, roundRatio, if_neg h, if_neg h, neg_infinity, Bool.not_false]

/-- The binary64 values lie symmetrically about zero, so nearest even does too. -/
theorem NearestEven.neg {q : ℚ} {x : F64} (h : NearestEven q x) : NearestEven (-q) (neg x) := by
  have hflip : ∀ y : F64, |toRat y - -q| = |toRat (F64.neg y) - q| := fun y => by
    rw [toRat_neg, ← abs_neg]; congr 1; ring
  refine ⟨(isFinite_neg x).trans h.1, fun y hy => ?_⟩
  obtain ⟨hle, heven⟩ := h.2 (F64.neg y) ((isFinite_neg y).trans hy)
  rw [hflip, hflip, neg_neg_eq, fraction_neg]
  refine ⟨hle, fun hdist hne => heven hdist fun e => hne ?_⟩
  rw [toRat_neg, ← e, toRat_neg, neg_neg]

theorem overflow_bound_pos : (0 : ℚ) < 2 ^ 1024 - 2 ^ 970 :=
  sub_pos.2 (pow_lt_pow_right₀ one_lt_two (by omega))

theorem Rounded.neg {q : ℚ} {x : F64} (h : Rounded q x) : Rounded (-q) (neg x) := by
  obtain ⟨hnear, hover⟩ := h
  rw [Rounded, abs_neg]
  refine ⟨fun hq => (hnear hq).neg, fun hq => ?_⟩
  have hne : q ≠ 0 := abs_pos.1 (overflow_bound_pos.trans_le hq)
  have hsign : decide (-q < 0) = !decide (q < 0) := by
    rw [← decide_not, decide_eq_decide, neg_lt_zero, not_lt, le_iff_lt_or_eq, or_iff_left hne.symm]
  rw [hover hq, neg_infinity, hsign]

/-- `roundRatio` rounds the ratio, in units of `2^-1074` and with its sign, once. -/
theorem rounded_roundRatio (n : Bool) (num : Nat) {den : Nat} (hden : 0 < den) :
    Rounded (signed n ((num / den : ℚ) / 2 ^ 1074)) (roundRatio n num den) := by
  have hpos : Rounded ((num / den : ℚ) / 2 ^ 1074) (roundRatio false num den) := by
    have hq : (0 : ℚ) ≤ (num / den : ℚ) / 2 ^ 1074 := by positivity
    rw [Rounded, abs_of_nonneg hq, ← roundLow_lt_iff hden, ← not_lt, ← roundLow_lt_iff hden]
    refine ⟨nearestEven_roundRatio hden, fun hover => ?_⟩
    rw [roundRatio, if_neg hover, decide_eq_false hq.not_gt]
  cases n with
  | false => exact hpos
  | true => rw [roundRatio_true]; exact hpos.neg

/-! ### The four operations -/

section
variable {a b : F64} (ha : isFinite a = true) (hb : isFinite b = true)
include ha hb

/-- The sign `fadd` gives an exact zero plays no part here: both zeros stand for 0. -/
theorem rounded_fadd : Rounded (toRat a + toRat b) (fadd a b) := by
  have hround := rounded_roundRatio (if units a + units b = 0 then sign a && sign b else decide (units a + units b < 0))
    (units a + units b).natAbs Nat.one_pos
  rw [← fadd_finite ha hb] at hround
  convert hround using 1
  rw [toRat, toRat, ← add_div, ← Int.cast_add, Nat.cast_one, div_one, Nat.cast_natAbs]
  generalize units a + units b = z
  rcases lt_trichotomy z 0 with hz | rfl | hz
  · rw [if_neg hz.ne, decide_eq_true hz, abs_of_neg hz, signed_true, Int.cast_neg, neg_div, neg_neg]
  · simp
  · rw [if_neg hz.ne', decide_eq_false hz.not_gt, abs_of_pos hz, signed_false]

theorem rounded_fsub : Rounded (toRat a - toRat b) (fsub a b) := by
  rw [fsub_finite ha hb, sub_eq_add_neg, ← toRat_neg]
  exact rounded_fadd ha ((isFinite_neg b).trans hb)

theorem rounded_fmul : Rounded (toRat a * toRat b) (fmul a b) := by
  have hround := rounded_roundRatio (sign a != sign b) (magnitude a * magnitude b) (den := 2 ^ 1074) (Nat.two_pow_pos _)
  rwa [← fmul_finite ha hb, Nat.cast_mul, Nat.cast_pow, Nat.cast_ofNat, mul_div_right_comm, mul_div_assoc,
    ← signed_mul_signed, ← toRat_eq_signed, ← toRat_eq_signed] at hround

theorem rounded_fdiv (h : toRat b ≠ 0) : Rounded (toRat a / toRat b) (fdiv a b) := by
  have hmag : magnitude b ≠ 0 := fun e => h (toRat_eq_zero.2 e)
  have hround := rounded_roundRatio (sign a != sign b) (magnitude a * 2 ^ 1074) (Nat.pos_of_ne_zero hmag)
  rwa [← fdiv_finite ha hb hmag, Nat.cast_mul, Nat.cast_pow, Nat.cast_ofNat, div_right_comm,
    mul_div_cancel_right₀ _ unit_pos.ne', ← div_div_div_cancel_right₀ unit_pos.ne', ← signed_div_signed,
    ← toRat_eq_signed, ← toRat_eq_signed] at hround

end

end Sys2Proof.Machine.F64

open Sys2Proof Sys2Proof.Machine

/-- Settles O45: each operation is `roundRatio` of its exact result. -/
theorem operationsRoundOnceToNearestEven : Obligations.OperationsRoundOnceToNearestEven :=
  fun _ _ ha hb => ⟨F64.rounded_fadd ha hb, F64.rounded_fsub ha hb, F64.rounded_fmul ha hb, F64.rounded_fdiv ha hb⟩

end

section
/-! ## Family 10_state: one command word on the register array

What a command word does to the array, and what its outcome depends on (`10_state.md` rules R22, R23, R31, R32). -/

namespace Sys2Proof.Machine

theorem wordStep_of_ok {w : PortWord} {i : Instr} (m : Memory) (h : decode w = .ok i) :
    wordStep m w = commandStep m i := by rw [wordStep, h]

theorem wordStep_of_error {w : PortWord} {e : Illegal} (m : Memory) (h : decode w = .error e) :
    wordStep m w = (m, ⟨.illegalCmd, 0⟩) := by rw [wordStep, h]

/-- UPDATE and ADDHASH are one use of the update primitive, CLEAR apart every other command leaves the array. -/
theorem commandStep_array_cases (m : Memory) {i : Instr} (hi : i ≠ .clear) :
    (commandStep m i).1 = m ∨ ∃ j v, (commandStep m i).1 = m.update j v := by
  cases i with
  | clear => exact absurd rfl hi
  | update index value => exact .inr ⟨index, value, rfl⟩
  | addhash hash => exact .inr ⟨hashedAddress hash, rankValue (rank hash), rfl⟩
  | nop | split | estimate | rdreg | rdalpha => exact .inl rfl

/-- Everything a word other than CLEAR's can do to the array. -/
theorem wordStep_array_cases (m : Memory) {w : PortWord} (hw : decode w ≠ .ok .clear) :
    (wordStep m w).1 = m ∨ ∃ j v, (wordStep m w).1 = m.update j v := by
  cases hd : decode w with
  | ok i =>
    rw [wordStep_of_ok m hd]
    exact commandStep_array_cases m fun hi => hw (hi ▸ hd)
  | error e => exact .inl (by rw [wordStep_of_error m hd])

theorem Memory.le_toNat_read_update (m : Memory) (i j : Index) (v : RegValue) :
    (m.read j.toNat).toNat ≤ ((m.update i v).read j.toNat).toNat := by
  rw [Memory.toNat_read_update]
  split
  · exact Nat.le_max_left _ _
  · exact Nat.le_refl _

/-- A word other than CLEAR's lowers no register (R32). -/
theorem le_toNat_read_wordStep (m : Memory) {w : PortWord} (hw : decode w ≠ .ok .clear) (i : Index) :
    (m.read i.toNat).toNat ≤ ((wordStep m w).1.read i.toNat).toNat := by
  obtain h | ⟨j, v, h⟩ := wordStep_array_cases m hw
  · rw [h]
  · rw [h]
    exact m.le_toNat_read_update j i v

/-- A word keeps every register at most 51 unless it is an UPDATE's with a larger value (R22). -/
theorem atMostRankMax_wordStep {m : Memory} {w : PortWord} (hm : m.AtMostRankMax)
    (hw : ∀ i v, decode w = .ok (.update i v) → v.toNat ≤ Config.rankMax) : (wordStep m w).1.AtMostRankMax := by
  cases hd : decode w with
  | ok c =>
    rw [wordStep_of_ok m hd]
    exact atMostRankMax_commandStep hm fun i v hc => hw i v (hc ▸ hd)
  | error e => rwa [wordStep_of_error m hd]

theorem atMostRankMax_empty : Memory.empty.AtMostRankMax := fun _ => Nat.zero_le _

section
variable {m n : Memory} (h : ∀ i : Index, m.read i.toNat = n.read i.toNat)
include h

theorem Memory.read_update_congr (i : Index) (v : RegValue) (j : Index) :
    (m.update i v).read j.toNat = (n.update i v).read j.toNat := by
  rw [← BitVec.toNat_inj, Memory.toNat_read_update, Memory.toNat_read_update, h j]

theorem estimate_congr : estimate m = estimate n :=
  estimateWith_congr ln64 fun a ha => by
    have hindex : (BitVec.ofNat 14 a).toNat = a := by rw [BitVec.toNat_ofNat]; exact Nat.mod_eq_of_lt ha
    exact hindex ▸ h (BitVec.ofNat 14 a)

/-- A command's response and the registers after it depend on the registers before it alone (R31). -/
theorem commandStep_congr (c : Instr) : (commandStep m c).2 = (commandStep n c).2 ∧
    ∀ i : Index, (commandStep m c).1.read i.toNat = (commandStep n c).1.read i.toNat := by
  cases c with
  | clear => exact ⟨rfl, fun _ => rfl⟩
  | update index value => exact ⟨rfl, Memory.read_update_congr h index value⟩
  | addhash hash => exact ⟨rfl, Memory.read_update_congr h _ _⟩
  | estimate => exact ⟨estimate_congr h, h⟩
  | rdreg index => exact ⟨by rw [commandStep, commandStep, h index], h⟩
  | nop | split | rdalpha => exact ⟨rfl, h⟩

/-- A word's response and the registers after it depend on the word and the registers before it alone (R31). -/
theorem wordStep_congr (w : PortWord) : (wordStep m w).2 = (wordStep n w).2 ∧
    ∀ i : Index, (wordStep m w).1.read i.toNat = (wordStep n w).1.read i.toNat := by
  cases hd : decode w with
  | ok c =>
    rw [wordStep_of_ok m hd, wordStep_of_ok n hd]
    exact commandStep_congr h c
  | error e =>
    rw [wordStep_of_error m hd, wordStep_of_error n hd]
    exact ⟨rfl, h⟩

end

end Sys2Proof.Machine

open Sys2Proof Sys2Proof.Machine

/-- Settles O60: reset leaves zeros, taking a response no change, and a word is `atMostRankMax_wordStep`. -/
theorem stepKeepsRanksAtMostFiftyOne : Obligations.StepKeepsRanksAtMostFiftyOne := by
  intro s t hs hinbox hstep
  obtain ⟨-, rfl⟩ | ⟨w, rest, hw, rfl⟩ | ⟨rest, -, rfl⟩ | ⟨rest, -, rfl⟩ := step_cases hstep
  · exact hs
  · exact atMostRankMax_wordStep hs fun i v hd => hinbox w rest i v hw hd
  · rwa [State.deliver_regs, State.withInbox_regs]
  · exact atMostRankMax_empty

/-- Settles O17: the canonical form holds no pair that reading does not show. -/
theorem arraysEqualWhenTheyAgreeEverywhere : Obligations.ArraysEqualWhenTheyAgreeEverywhere :=
  fun _ _ hm hn h => Memory.eq_of_read hm hn h

/-- Settles O19: `runWord` uses the array through `wordStep` alone, and that sees only what is read. -/
theorem commandSeesTheRegistersAlone : Obligations.CommandSeesTheRegistersAlone := by
  intro w s s' h
  obtain ⟨hresponse, hregs⟩ := wordStep_congr h w
  exact ⟨_, _, (wordStep s.regs w).2, runWord_eq w s, runWord_eq w s', rfl, by rw [hresponse], hregs⟩

/-- Settles O36: only a command word reaches the array, and then `le_toNat_read_wordStep`. -/
theorem registersNeverDecreaseOutsideClearAndReset : Obligations.RegistersNeverDecreaseOutsideClearAndReset := by
  intro s t hstep hreset hclear i
  obtain ⟨-, rfl⟩ | ⟨w, rest, hw, rfl⟩ | ⟨rest, -, rfl⟩ | ⟨rest, hr, -⟩ := step_cases hstep
  · exact Nat.le_refl _
  · exact le_toNat_read_wordStep s.regs (hclear w rest hw) i
  · rw [State.reg, State.reg, State.deliver_regs, State.withInbox_regs]
  · exact absurd hr (hreset rest)

/-- Settles O37: a word other than CLEAR's updates one index at most, so a register that changes stands there. -/
theorem onlyClearChangesTwoRegisters : Obligations.OnlyClearChangesTwoRegisters := by
  intro w s t hrun hw a b hab hchanged
  rw [runWord_eq] at hrun
  cases hrun
  obtain h | ⟨j, v, h⟩ := wordStep_array_cases s.regs hw
  · rw [h]
  · rw [h] at hchanged ⊢
    have ha : a = j.toNat := by_contra fun hne => hchanged (Memory.read_update_other s.regs j v hne)
    exact Memory.read_update_other s.regs j v (ha ▸ hab.symm)

end

section
/-! ## Family 10_state: runs in which every UPDATE value is at most 51

The invariant of `10_state.md` rule R22: the registers are at most 51 and so is every UPDATE value still to come. -/

namespace Sys2Proof.Machine

theorem step_answers (s : State) : Answers (step s) := by
  match h : s.inbox with
  | [] => exact ⟨_, step_idle h⟩
  | .command _ :: _ => exact ⟨_, step_command_eq h⟩
  | .take :: _ => exact ⟨_, step_take h⟩
  | .reset :: _ => exact ⟨_, step_reset h⟩

/-- What every step keeps holds at the end of every run from a state where it holds. -/
theorem run_keeps {P : State → Prop} (hstep : ∀ s t, P s → step s = .next t → P t) {k : Nat} {s t : State}
    (hs : P s) (hrun : Sys2Proof.core.run k s = .next t) : P t := by
  induction k generalizing s with
  | zero => cases hrun; exact hs
  | succ k ih =>
    obtain ⟨s', h⟩ := step_answers s
    exact ih (hstep s s' hs h) (run_succ k h ▸ hrun)

/-- A step presents nothing new. -/
theorem inbox_subset_of_step {s t : State} (h : step s = .next t) : t.inbox ⊆ s.inbox := by
  obtain ⟨-, rfl⟩ | ⟨w, rest, hs, rfl⟩ | ⟨rest, hs, rfl⟩ | ⟨rest, hs, rfl⟩ := step_cases h
  · exact List.Subset.refl _
  all_goals
    rw [hs]
    simp

/-- Every UPDATE word among the events carries a value of at most 51, the premise of R22. -/
def UpdatesAtMostRankMax (events : List PortEvent) : Prop :=
  ∀ w i v, .command w ∈ events → decode w = .ok (.update i v) → v.toNat ≤ Config.rankMax

/-- The registers are at most 51 and so is every UPDATE value still to come (R22). -/
def State.RanksBounded (s : State) : Prop := s.regs.AtMostRankMax ∧ UpdatesAtMostRankMax s.inbox

theorem ranksBounded_step (s t : State) (hs : s.RanksBounded) (h : step s = .next t) : t.RanksBounded := by
  obtain ⟨hregs, hinbox⟩ := hs
  have holdest : ∀ w rest i v, s.inbox = .command w :: rest → decode w = .ok (.update i v) → v.toNat ≤ 51 :=
    fun w rest i v hw => hinbox w i v (hw ▸ List.mem_cons_self)
  exact ⟨stepKeepsRanksAtMostFiftyOne s t hregs holdest h,
    fun w i v hw => hinbox w i v (inbox_subset_of_step h hw)⟩

end Sys2Proof.Machine

open Sys2Proof Sys2Proof.Machine

/-- Settles O38: `State.RanksBounded` holds at reset and every step keeps it. -/
theorem ranksStayAtMostFiftyOne : Obligations.RanksStayAtMostFiftyOne := by
  intro events k t hevents hrun
  have hstart : State.RanksBounded { State.reset with inbox := events } := ⟨atMostRankMax_empty, hevents⟩
  exact (run_keeps ranksBounded_step hstart hrun).1

end

section
/-! ## Family 10_state: the constant ALPHA

O48: the printed values of `10_state.md` rules R25 and R26, each by kernel evaluation of one operation. -/

namespace Sys2Proof.Machine

theorem alphaOf_formula {m : Nat} (h16 : m ≠ 16) (h32 : m ≠ 32) (h64 : m ≠ 64) :
    alphaOf m = F64.fdiv (F64.lit false 7213 4)
      (F64.fadd F64.one (F64.fdiv (F64.lit false 1079 3) (F64.u2f m))) := by
  rw [alphaOf, if_neg h16, if_neg h32, if_neg h64]

end Sys2Proof.Machine

open Sys2Proof Sys2Proof.Machine

/-- Settles O48: the three special sizes are literals, and ALPHA is reached operation by operation. -/
theorem alphaHasItsValues : Obligations.AlphaHasItsValues := by
  have hnum : F64.lit false 7213 4 = 0x3FE714E3BCD35A86 := by decide +kernel
  have hcoeff : F64.lit false 1079 3 = 0x3FF14395810624DD := by decide +kernel
  have hratio : F64.fdiv 0x3FF14395810624DD (F64.u2f 16384) = 0x3F114395810624DD := by decide +kernel
  have hden : F64.fadd F64.one 0x3F114395810624DD = 0x3FF000450E560419 := by decide +kernel
  have hquotient : F64.fdiv 0x3FE714E3BCD35A86 0x3FF000450E560419 = ALPHA := by decide +kernel
  have hformula : alphaOf 16384 = ALPHA := by
    rw [alphaOf_formula (by decide) (by decide) (by decide), hnum, hcoeff, hratio, hden, hquotient]
  exact ⟨by decide +kernel, by decide +kernel, by decide +kernel, hnum, hcoeff, hratio, hden, hquotient, hformula, rfl⟩

end

section
/-! ## Family 20_memory: the step that meets a legal command word

O8: the oldest word is decoded and its command run, as one transition (`20_memory.md` rules R44, R47). -/

namespace Sys2Proof.Machine

/-- A legal word runs the command it decodes to (R44). -/
theorem runWord_of_decode_ok {w : PortWord} {i : Instr} (h : decode w = .ok i) (s : State) :
    runWord w s = exec i s := by
  unfold runWord
  rw [h]

end Sys2Proof.Machine

open Sys2Proof Sys2Proof.Machine

/-- Settles O8: the step runs the oldest word, and the word runs its command. -/
theorem stepRunsTheDecodedCommand : Obligations.StepRunsTheDecodedCommand := by
  intro s w rest i hinbox hdecode
  calc step s = runWord w (s.withInbox rest) := step_command hinbox
    _ = exec i (s.withInbox rest) := runWord_of_decode_ok hdecode _

end

section
/-! ## Family 30_encoding: decode and encode are inverse

The legal words are the words `encode` produces, one per command (`30_encoding.md` rule R72). -/

namespace Sys2Proof

/-! ### The decoder's formats -/

theorem ite_ok_eq_ok_iff {p : Prop} [Decidable p] {c i : Instr} {e : Illegal} :
    (if p then Except.ok c else .error e) = .ok i ↔ p ∧ c = i := by
  by_cases hp : p <;> simp [hp]

theorem formatZ_eq_ok_iff {x : Word64} {c i : Instr} : formatZ x c = .ok i ↔ x = 0 ∧ c = i := ite_ok_eq_ok_iff

theorem formatI_eq_ok_iff {x : Word64} {f : Index → Instr} {i : Instr} :
    formatI x f = .ok i ↔ x.extractLsb' 14 50 = 0 ∧ f (indexField x) = i := ite_ok_eq_ok_iff

theorem formatU_eq_ok_iff {x : Word64} {f : Index → RegValue → Instr} {i : Instr} :
    formatU x f = .ok i ↔
      (x.extractLsb' 24 40 = 0 ∧ x.extractLsb' 14 2 = 0) ∧ f (indexField x) (valueField x) = i := ite_ok_eq_ok_iff

/-- An operand is its format I fields (R63). -/
theorem formatI_fields_append (x : Word64) : x.extractLsb' 14 50 ++ indexField x = x := by
  rw [indexField, BitVec.extractLsb'_append_extractLsb'_eq_extractLsb' (Nat.zero_add 14).symm,
    BitVec.extractLsb'_eq_self]

/-- An operand is its format U fields (R63). -/
theorem formatU_fields_append (x : Word64) :
    x.extractLsb' 24 40 ++ valueField x ++ x.extractLsb' 14 2 ++ indexField x = x := by
  rw [indexField, valueField, BitVec.extractLsb'_append_extractLsb'_eq_extractLsb' (show 24 = 16 + 8 from rfl),
    BitVec.extractLsb'_append_extractLsb'_eq_extractLsb' (show 16 = 14 + 2 from rfl),
    BitVec.extractLsb'_append_extractLsb'_eq_extractLsb' (Nat.zero_add 14).symm, BitVec.extractLsb'_eq_self]

theorem operand_rdreg_indexField {x : Word64} (h : x.extractLsb' 14 50 = 0) :
    (Instr.rdreg (indexField x)).operand = x := by
  have hx := formatI_fields_append x
  rwa [h] at hx

theorem operand_update_fields {x : Word64} (h24 : x.extractLsb' 24 40 = 0) (h14 : x.extractLsb' 14 2 = 0) :
    (Instr.update (indexField x) (valueField x)).operand = x := by
  have hx := formatU_fields_append x
  rwa [h24, h14] at hx

/-! ### Legal words -/

theorem decode_encode (i : Instr) : decode (encode i) = .ok i := by
  cases i with
  | nop => exact Laws.RoundTrip.nop
  | clear => exact Laws.RoundTrip.clear
  | split hash => exact Laws.RoundTrip.split hash
  | update index value => exact Laws.RoundTrip.update index value
  | addhash hash => exact Laws.RoundTrip.addhash hash
  | estimate => exact Laws.RoundTrip.estimate
  | rdreg index => exact Laws.RoundTrip.rdreg index
  | rdalpha => exact Laws.RoundTrip.rdalpha

/-- Two commands with one word are decoded alike, so they are equal. -/
theorem encode_injective : Function.Injective encode := fun i j h =>
  Except.ok.inj ((decode_encode i).symm.trans ((congrArg decode h).trans (decode_encode j)))

/-- What the decoder checked and extracted is the whole word. -/
theorem opcode_and_operand_of_decode {w : PortWord} {i : Instr} (h : decode w = .ok i) :
    i.opcode = opcodeOf w ∧ i.operand = operandOf w := by
  unfold decode at h
  split at h
  case h_1 hop | h_2 hop | h_6 hop | h_8 hop =>
    obtain ⟨hx, rfl⟩ := formatZ_eq_ok_iff.1 h
    exact ⟨BitVec.eq_of_toNat_eq hop.symm, hx.symm⟩
  case h_3 hop | h_5 hop =>
    cases h
    exact ⟨BitVec.eq_of_toNat_eq hop.symm, rfl⟩
  case h_4 hop =>
    obtain ⟨⟨h24, h14⟩, rfl⟩ := formatU_eq_ok_iff.1 h
    exact ⟨BitVec.eq_of_toNat_eq hop.symm, operand_update_fields h24 h14⟩
  case h_7 hop =>
    obtain ⟨h14, rfl⟩ := formatI_eq_ok_iff.1 h
    exact ⟨BitVec.eq_of_toNat_eq hop.symm, operand_rdreg_indexField h14⟩
  case h_9 => cases h

theorem encode_of_decode {w : PortWord} {i : Instr} (h : decode w = .ok i) : encode i = w := by
  obtain ⟨hop, hx⟩ := opcode_and_operand_of_decode h
  rw [encode, hop, hx, opcode_append_operand]

/-- The decoder accepts a command's own word and no other (R72). -/
theorem decode_eq_ok_iff {w : PortWord} {i : Instr} : decode w = .ok i ↔ encode i = w :=
  ⟨encode_of_decode, fun h => h ▸ decode_encode i⟩

end Sys2Proof

open Sys2Proof Sys2Proof.Machine

/-- Settles O2: one round trip per constructor of `Instr`. -/
theorem decodeOfEncodeIsTheCommand : Obligations.DecodeOfEncodeIsTheCommand := decode_encode

/-- Settles O3: the checked zeros and the extracted fields make up the whole word. -/
theorem everyLegalWordIsTheEncoding : Obligations.EveryLegalWordIsTheEncoding := fun _ _ => encode_of_decode

/-- Settles O6: each word is the encoding of its command. -/
theorem writtenWordsDecodeToTheirCommands : Obligations.WrittenWordsDecodeToTheirCommands :=
  ⟨decode_encode .nop, decode_encode .clear, decode_encode (.split 0xDEADBEEFCAFEBABE),
    decode_encode (.update 16383 255), decode_encode (.addhash 0xDEADBEEFCAFEBABE), decode_encode .estimate,
    decode_encode (.rdreg 16383), decode_encode .rdalpha⟩

end

section
/-! ## Family 30_encoding: the number of legal words

O5: the legal words correspond to the commands, and those to their operand fields. -/

namespace Sys2Proof

/-- A command is its opcode, here the place in the sum, and its operand fields. -/
def Instr.equivFields :
    Instr ≃ Unit ⊕ Unit ⊕ Word64 ⊕ (RegValue × Index) ⊕ Word64 ⊕ Unit ⊕ Index ⊕ Unit where
  toFun
    | .nop => .inl ()
    | .clear => .inr (.inl ())
    | .split hash => .inr (.inr (.inl hash))
    | .update index value => .inr (.inr (.inr (.inl (value, index))))
    | .addhash hash => .inr (.inr (.inr (.inr (.inl hash))))
    | .estimate => .inr (.inr (.inr (.inr (.inr (.inl ())))))
    | .rdreg index => .inr (.inr (.inr (.inr (.inr (.inr (.inl index))))))
    | .rdalpha => .inr (.inr (.inr (.inr (.inr (.inr (.inr ()))))))
  invFun
    | .inl () => .nop
    | .inr (.inl ()) => .clear
    | .inr (.inr (.inl hash)) => .split hash
    | .inr (.inr (.inr (.inl (value, index)))) => .update index value
    | .inr (.inr (.inr (.inr (.inl hash)))) => .addhash hash
    | .inr (.inr (.inr (.inr (.inr (.inl ()))))) => .estimate
    | .inr (.inr (.inr (.inr (.inr (.inr (.inl index)))))) => .rdreg index
    | .inr (.inr (.inr (.inr (.inr (.inr (.inr ())))))) => .rdalpha
  left_inv i := by cases i <;> rfl
  right_inv x := by
    obtain _ | _ | _ | _ | _ | _ | _ | _ := x <;> rfl

theorem card_bitVec (n : Nat) : Nat.card (BitVec n) = 2 ^ n :=
  Nat.card_eq_of_equiv_fin BitVec.equivFin.toEquiv

theorem card_instr : Nat.card Instr = 1 + 1 + 2 ^ 64 + 2 ^ 22 + 2 ^ 64 + 1 + 2 ^ 14 + 1 := by
  rw [Nat.card_congr Instr.equivFields]
  simp only [Nat.card_sum, Nat.card_prod, Nat.card_unique, card_bitVec]
  norm_num

theorem setOf_legal_eq_range_encode : { w : PortWord | ∃ i, decode w = .ok i } = Set.range encode :=
  Set.ext fun _ => exists_congr fun _ => decode_eq_ok_iff

end Sys2Proof

open Sys2Proof Sys2Proof.Machine

/-- Settles O5: `encode` is injective and its range is the legal words. -/
theorem numberOfLegalWords : Obligations.NumberOfLegalWords :=
  calc Nat.card { w : PortWord // ∃ i, decode w = .ok i }
    _ = Nat.card (Set.range encode) := congrArg (fun s : Set PortWord => Nat.card s) setOf_legal_eq_range_encode
    _ = Nat.card Instr := Nat.card_range_of_injective encode_injective
    _ = 1 + 1 + 2 ^ 64 + 2 ^ 22 + 2 ^ 64 + 1 + 2 ^ 14 + 1 := card_instr

end

section
/-! ## Family 30_encoding: the decoder in numbers

O1: the decoder opcode by opcode, the fields by division and remainder (`30_encoding.md` rules R63, R66, R67). -/

namespace Sys2Proof

/-! ### The decoder, one equation per opcode -/

theorem decode_nop (x : Word64) : decode (0x00#8 ++ x) = formatZ x .nop := by
  rw [decode, opcodeOf_append, operandOf_append]; rfl
theorem decode_clear (x : Word64) : decode (0x01#8 ++ x) = formatZ x .clear := by
  rw [decode, opcodeOf_append, operandOf_append]; rfl
theorem decode_split (x : Word64) : decode (0x02#8 ++ x) = .ok (.split x) := by
  rw [decode, opcodeOf_append, operandOf_append]; rfl
theorem decode_update (x : Word64) : decode (0x03#8 ++ x) = formatU x .update := by
  rw [decode, opcodeOf_append, operandOf_append]; rfl
theorem decode_addhash (x : Word64) : decode (0x04#8 ++ x) = .ok (.addhash x) := by
  rw [decode, opcodeOf_append, operandOf_append]; rfl
theorem decode_estimate (x : Word64) : decode (0x05#8 ++ x) = formatZ x .estimate := by
  rw [decode, opcodeOf_append, operandOf_append]; rfl
theorem decode_rdreg (x : Word64) : decode (0x06#8 ++ x) = formatI x .rdreg := by
  rw [decode, opcodeOf_append, operandOf_append]; rfl
theorem decode_rdalpha (x : Word64) : decode (0x07#8 ++ x) = formatZ x .rdalpha := by
  rw [decode, opcodeOf_append, operandOf_append]; rfl
theorem decode_reserved {op : BitVec 8} (h : 8 ≤ op.toNat) (x : Word64) :
    decode (op ++ x) = .error .reservedOpcode := by
  rw [decode, opcodeOf_append]
  split
  case h_9 => rfl
  all_goals omega

/-! ### Fields by division and remainder -/

theorem word_ofNat_eq_append (op : Nat) {x : Nat} (hx : x < 2 ^ 64) :
    BitVec.ofNat 72 (op * 2 ^ 64 + x) = BitVec.ofNat 8 op ++ BitVec.ofNat 64 x := by
  apply BitVec.eq_of_toNat_eq
  rw [BitVec.toNat_append, ← Nat.shiftLeft_add_eq_or_of_lt (BitVec.isLt _), Nat.shiftLeft_eq]
  simp only [BitVec.toNat_ofNat]
  omega

theorem extractLsb'_ofNat (w start len n : Nat) (hn : n < 2 ^ w) :
    (BitVec.ofNat w n).extractLsb' start len = BitVec.ofNat len (n / 2 ^ start) := by
  apply BitVec.eq_of_toNat_eq
  rw [BitVec.extractLsb'_toNat, BitVec.toNat_ofNat, BitVec.toNat_ofNat, Nat.mod_eq_of_lt hn,
    Nat.shiftRight_eq_div_pow]

theorem ofNat_eq_zero_iff (len n : Nat) : BitVec.ofNat len n = 0 ↔ n % 2 ^ len = 0 := by
  rw [← BitVec.toNat_inj]
  simp

section
variable {x : Nat} (hx : x < 2 ^ 64)
include hx

theorem formatZ_ofNat (c : Instr) :
    formatZ (BitVec.ofNat 64 x) c = if x = 0 then .ok c else .error .mustBeZero := by
  simp only [formatZ, ofNat_eq_zero_iff, Nat.mod_eq_of_lt hx]

theorem formatI_ofNat (f : Index → Instr) :
    formatI (BitVec.ofNat 64 x) f =
      if x / 2 ^ 14 = 0 then .ok (f (BitVec.ofNat 14 x)) else .error .mustBeZero := by
  have hhigh : x / 2 ^ 14 % 2 ^ 50 = x / 2 ^ 14 := Nat.mod_eq_of_lt (by omega)
  simp only [formatI, indexField, extractLsb'_ofNat _ _ _ _ hx, ofNat_eq_zero_iff, hhigh, pow_zero, Nat.div_one]

theorem formatU_ofNat (f : Index → RegValue → Instr) :
    formatU (BitVec.ofNat 64 x) f =
      if x / 2 ^ 24 = 0 ∧ x / 2 ^ 14 % 2 ^ 2 = 0 then
        .ok (f (BitVec.ofNat 14 (x % 2 ^ 14)) (BitVec.ofNat 8 (x / 2 ^ 16))) else .error .mustBeZero := by
  have hhigh : x / 2 ^ 24 % 2 ^ 40 = x / 2 ^ 24 := Nat.mod_eq_of_lt (by omega)
  have hindex : BitVec.ofNat 14 (x % 2 ^ 14) = BitVec.ofNat 14 x := BitVec.eq_of_toNat_eq (by simp)
  simp only [formatU, indexField, valueField, extractLsb'_ofNat _ _ _ _ hx, ofNat_eq_zero_iff, hhigh, hindex,
    pow_zero, Nat.div_one]

end

/-- The form in which O1 writes a decoder's choice. -/
theorem ite_eq_of_eq_ite {p : Prop} [Decidable p] {α : Type} {d a b : α} (h : d = if p then a else b) :
    if p then d = a else d = b := by
  by_cases hp : p <;> simpa [hp] using h

end Sys2Proof

open Sys2Proof Sys2Proof.Machine

/-- Settles O1: the word is opcode ++ operand, and each format is its check on the operand as a number. -/
theorem decoderReadsEveryWord : Obligations.DecoderReadsEveryWord := by
  intro op x hop hx d zeroFormat
  have hd : d = decode (BitVec.ofNat 8 op ++ BitVec.ofNat 64 x) := congrArg decode (word_ofNat_eq_append op hx)
  have hzero {c : Instr} (hc : d = formatZ (BitVec.ofNat 64 x) c) : zeroFormat c :=
    ite_eq_of_eq_ite (hc.trans (formatZ_ofNat hx c))
  refine ⟨?nop, ?clear, ?split, ?update, ?addhash, ?estimate, ?rdreg, ?rdalpha, ?reserved⟩
  case nop => rintro rfl; exact hzero (hd.trans (decode_nop _))
  case clear => rintro rfl; exact hzero (hd.trans (decode_clear _))
  case split => rintro rfl; exact hd.trans (decode_split _)
  case update =>
    rintro rfl
    exact ite_eq_of_eq_ite (hd.trans ((decode_update _).trans (formatU_ofNat hx _)))
  case addhash => rintro rfl; exact hd.trans (decode_addhash _)
  case estimate => rintro rfl; exact hzero (hd.trans (decode_estimate _))
  case rdreg =>
    rintro rfl
    exact ite_eq_of_eq_ite (hd.trans ((decode_rdreg _).trans (formatI_ofNat hx _)))
  case rdalpha => rintro rfl; exact hzero (hd.trans (decode_rdalpha _))
  case reserved =>
    intro hreserved
    exact hd.trans (decode_reserved (by rwa [BitVec.toNat_ofNat, Nat.mod_eq_of_lt hop]) _)

end

section
/-! ## Family 30_encoding: the opcode table

O4: a row's mask looks at the whole opcode and at the operand bits its format marks 0 (`30_encoding.md` rule R64). -/

namespace Sys2Proof

/-! ### The masks of the formats, on the operand -/

theorem append_eq_zero_iff {m n : Nat} {x : BitVec m} {y : BitVec n} : x ++ y = 0 ↔ x = 0 ∧ y = 0 := by
  simp [← BitVec.toNat_inj, BitVec.toNat_append, Nat.or_eq_zero_iff, Nat.shiftLeft_eq]

theorem and_maskZ_eq_zero_iff (x : Word64) (c : Instr) :
    x &&& 0xFFFFFFFFFFFFFFFF = 0 ↔ ∃ i, formatZ x c = .ok i := by
  have hmask : x &&& 0xFFFFFFFFFFFFFFFF = x := BitVec.and_allOnes
  rw [hmask]
  simp [formatZ_eq_ok_iff]

theorem and_maskI_eq_zero_iff (x : Word64) (f : Index → Instr) :
    x &&& 0xFFFFFFFFFFFFC000 = 0 ↔ ∃ i, formatI x f = .ok i := by
  have hmask : x &&& 0xFFFFFFFFFFFFC000 = x.extractLsb' 14 50 ++ 0#14 :=
    calc x &&& 0xFFFFFFFFFFFFC000
      _ = (x.extractLsb' 14 50 ++ indexField x) &&& (BitVec.allOnes 50 ++ 0#14) :=
          congrArg (· &&& _) (formatI_fields_append x).symm
      _ = x.extractLsb' 14 50 ++ 0#14 := by rw [BitVec.and_append, BitVec.and_allOnes, BitVec.and_zero]
  rw [hmask, append_eq_zero_iff]
  simp [formatI_eq_ok_iff]

theorem and_maskU_eq_zero_iff (x : Word64) (f : Index → RegValue → Instr) :
    x &&& 0xFFFFFFFFFF00C000 = 0 ↔ ∃ i, formatU x f = .ok i := by
  have hmask : x &&& 0xFFFFFFFFFF00C000 = x.extractLsb' 24 40 ++ 0#8 ++ x.extractLsb' 14 2 ++ 0#14 :=
    calc x &&& 0xFFFFFFFFFF00C000
      _ = (x.extractLsb' 24 40 ++ valueField x ++ x.extractLsb' 14 2 ++ indexField x) &&&
            (BitVec.allOnes 40 ++ 0#8 ++ BitVec.allOnes 2 ++ 0#14) :=
          congrArg (· &&& _) (formatU_fields_append x).symm
      _ = x.extractLsb' 24 40 ++ 0#8 ++ x.extractLsb' 14 2 ++ 0#14 := by
          simp only [BitVec.and_append, BitVec.and_allOnes, BitVec.and_zero]
  rw [hmask, append_eq_zero_iff, append_eq_zero_iff, append_eq_zero_iff]
  simp [formatU_eq_ok_iff]

/-! ### The rows -/

theorem append_inj_iff {a b : BitVec 8} {x y : Word64} : a ++ x = b ++ y ↔ a = b ∧ x = y := by
  refine ⟨fun h => ⟨?_, ?_⟩, fun ⟨ha, hx⟩ => ha ▸ hx ▸ rfl⟩
  · rw [← opcodeOf_append a x, h, opcodeOf_append]
  · rw [← operandOf_append a x, h, operandOf_append]

section
variable {r : OpcodeRow} (hr : r ∈ opcodeTable)
include hr

/-- Every row's mask takes the whole opcode, and its match has a zero operand (R64). -/
theorem row_mask_and_pattern :
    r.mask = BitVec.allOnes 8 ++ operandOf r.mask ∧ r.pattern = opcodeOf r.pattern ++ 0#64 := by
  revert r
  decide

theorem spelledBy_append_iff (op : BitVec 8) (x : Word64) :
    r.spelledBy (op ++ x) = true ↔ op = opcodeOf r.pattern ∧ x &&& operandOf r.mask = 0 := by
  obtain ⟨hmask, hpattern⟩ := row_mask_and_pattern hr
  rw [OpcodeRow.spelledBy, beq_iff_eq, hmask, BitVec.and_append, BitVec.and_allOnes, hpattern, append_inj_iff,
    operandOf_append, opcodeOf_append]
  rfl

/-- The operand bits a row's mask takes are those the format of its opcode checks (R63, R64). -/
theorem and_operand_mask_eq_zero_iff (x : Word64) :
    x &&& operandOf r.mask = 0 ↔ ∃ i, decode (opcodeOf r.pattern ++ x) = .ok i := by
  simp only [opcodeTable, List.mem_cons, List.not_mem_nil, or_false] at hr
  obtain rfl | rfl | rfl | rfl | rfl | rfl | rfl | rfl := hr
  · exact decode_nop x ▸ and_maskZ_eq_zero_iff x .nop
  · exact decode_clear x ▸ and_maskZ_eq_zero_iff x .clear
  · exact iff_of_true BitVec.and_zero ⟨_, decode_split x⟩
  · exact decode_update x ▸ and_maskU_eq_zero_iff x .update
  · exact iff_of_true BitVec.and_zero ⟨_, decode_addhash x⟩
  · exact decode_estimate x ▸ and_maskZ_eq_zero_iff x .estimate
  · exact decode_rdreg x ▸ and_maskI_eq_zero_iff x .rdreg
  · exact decode_rdalpha x ▸ and_maskZ_eq_zero_iff x .rdalpha

/-- In the table mnemonics and opcodes name the same rows. -/
theorem mnemonic_eq_iff_opcode_eq (i : Instr) : i.mnemonic = r.mnemonic ↔ i.opcode = opcodeOf r.pattern := by
  revert r
  cases i <;> simp only [Instr.mnemonic, Instr.opcode] <;> decide

end

end Sys2Proof

open Sys2Proof Sys2Proof.Machine

/-- Settles O4: both sides ask for the row's opcode and for zeros where its format has them. -/
theorem wordSpellsRowExactlyWhenItDecodesToIt : Obligations.WordSpellsRowExactlyWhenItDecodesToIt := by
  intro w r hr
  have hspell := spelledBy_append_iff hr (opcodeOf w) (operandOf w)
  rw [opcode_append_operand] at hspell
  rw [hspell, and_operand_mask_eq_zero_iff hr]
  constructor
  · rintro ⟨hop, i, hi⟩
    rw [← hop, opcode_append_operand] at hi
    obtain ⟨hopcode, -⟩ := opcode_and_operand_of_decode hi
    exact ⟨i, hi, (mnemonic_eq_iff_opcode_eq hr i).2 (hopcode.trans hop)⟩
  · rintro ⟨i, hi, hmnemonic⟩
    obtain ⟨hopcode, -⟩ := opcode_and_operand_of_decode hi
    have hop : opcodeOf w = opcodeOf r.pattern :=
      hopcode.symm.trans ((mnemonic_eq_iff_opcode_eq hr i).1 hmnemonic)
    exact ⟨hop, i, by rwa [← hop, opcode_append_operand]⟩

end

section
/-! ## Family 30_encoding: the assembler

O7: a line in R70's ranges assembles to the command whose line it is, any other to none. -/

namespace Sys2Proof

theorem wellFormed_line (i : Instr) : i.line.wellFormed = true := by
  cases i with
  | nop => exact Laws.WellFormed.nop
  | clear => exact Laws.WellFormed.clear
  | split hash => exact Laws.WellFormed.split hash
  | update index value => exact Laws.WellFormed.update index value
  | addhash hash => exact Laws.WellFormed.addhash hash
  | estimate => exact Laws.WellFormed.estimate
  | rdreg index => exact Laws.WellFormed.rdreg index
  | rdalpha => exact Laws.WellFormed.rdalpha

theorem assemble_eq_none {l : Line} (h : l.wellFormed = false) : l.assemble = none := by
  unfold Line.assemble
  rw [if_neg (Bool.eq_false_iff.1 h)]

theorem assemble_line (i : Instr) : i.line.assemble = some i := by
  unfold Line.assemble
  rw [if_pos (wellFormed_line i)]
  cases i <;> simp [Instr.line]

/-! ### The assembler, one equation per mnemonic with operands -/

theorem assemble_split (hash : Nat) : (Line.split hash).assemble =
    if hash < 2 ^ 64 then some (.split (BitVec.ofNat 64 hash)) else none := by
  simp only [Line.assemble, Line.wellFormed, decide_eq_true_eq]

theorem assemble_addhash (hash : Nat) : (Line.addhash hash).assemble =
    if hash < 2 ^ 64 then some (.addhash (BitVec.ofNat 64 hash)) else none := by
  simp only [Line.assemble, Line.wellFormed, decide_eq_true_eq]

theorem assemble_update (index value : Nat) : (Line.update index value).assemble =
    if index < 16384 ∧ value < 256 then some (.update (BitVec.ofNat 14 index) (BitVec.ofNat 8 value)) else none := by
  simp only [Line.assemble, Line.wellFormed, Bool.and_eq_true, decide_eq_true_eq]

theorem assemble_rdreg (index : Nat) : (Line.rdreg index).assemble =
    if index < 16384 then some (.rdreg (BitVec.ofNat 14 index)) else none := by
  simp only [Line.assemble, Line.wellFormed, decide_eq_true_eq]

theorem toNat_ofNat_of_lt {width n : Nat} (h : n < 2 ^ width) : (BitVec.ofNat width n).toNat = n :=
  (BitVec.toNat_ofNat n width).trans (Nat.mod_eq_of_lt h)

/-- A line in range is the line of a command: no operand loses a bit at its field's width. -/
theorem exists_line_eq {l : Line} (h : l.wellFormed = true) : ∃ i : Instr, i.line = l := by
  cases l with
  | nop => exact ⟨.nop, rfl⟩
  | clear => exact ⟨.clear, rfl⟩
  | split hash =>
    exact ⟨.split (BitVec.ofNat 64 hash), congrArg Line.split (toNat_ofNat_of_lt (of_decide_eq_true h))⟩
  | update index value =>
    rw [Line.wellFormed, Bool.and_eq_true, decide_eq_true_eq, decide_eq_true_eq] at h
    obtain ⟨hindex, hvalue⟩ := h
    exact ⟨.update (BitVec.ofNat 14 index) (BitVec.ofNat 8 value),
      congrArg₂ Line.update (toNat_ofNat_of_lt hindex) (toNat_ofNat_of_lt hvalue)⟩
  | addhash hash =>
    exact ⟨.addhash (BitVec.ofNat 64 hash), congrArg Line.addhash (toNat_ofNat_of_lt (of_decide_eq_true h))⟩
  | estimate => exact ⟨.estimate, rfl⟩
  | rdreg index =>
    exact ⟨.rdreg (BitVec.ofNat 14 index), congrArg Line.rdreg (toNat_ofNat_of_lt (of_decide_eq_true h))⟩
  | rdalpha => exact ⟨.rdalpha, rfl⟩

theorem assemble_of_wellFormed {l : Line} (h : l.wellFormed = true) : ∃ i, l.assemble = some i ∧ i.line = l := by
  obtain ⟨i, rfl⟩ := exists_line_eq h
  exact ⟨i, assemble_line i, rfl⟩

end Sys2Proof

open Sys2Proof Sys2Proof.Machine

/-- Settles O7: the lines in range are the commands' lines, and the assembler reads those back. -/
theorem linesInRangeAssemble : Obligations.LinesInRangeAssemble :=
  ⟨fun _ => ⟨assemble_of_wellFormed, assemble_eq_none⟩, assemble_line,
    fun hash => ⟨assemble_split hash, assemble_addhash hash⟩, assemble_update, assemble_rdreg,
    congrArg (Option.map encode) (assemble_line (.update 5 3)),
    congrArg (Option.map encode) (assemble_line (.addhash 0xDEADBEEFCAFEBABE))⟩

end

section
/-! ## Family 30_encoding: the response port

O12: delivery of responses in order. O13: the events of one clock edge (`30_encoding.md` rules R60, R62). -/

namespace Sys2Proof.Machine

/-- Delivery takes the front of the pending responses, when there is one, to the end of the delivered words. -/
theorem State.deliver_eq (s : State) : s.deliver =
    { s with pending := s.pending.drop 1, delivered := s.delivered ++ (s.pending.take 1).map Response.word } := by
  cases h : s.pending with
  | nil =>
    rw [s.deliver_nothing h, List.drop_nil, List.take_nil, List.map_nil, List.append_nil, ← h]
  | cons r rest => exact s.deliver_oldest h

theorem run_take (n : Nat) (s : State) (rest : List PortEvent) (h : s.inbox = List.replicate n .take ++ rest) :
    Sys2Proof.core.run n s = .next { s with
      inbox := rest, pending := s.pending.drop n,
      delivered := s.delivered ++ (s.pending.take n).map Response.word } := by
  induction n generalizing s with
  | zero =>
    have hinbox : s.inbox = rest := h
    simp only [Host.Core.run, ← hinbox, List.drop_zero, List.take_zero, List.map_nil, List.append_nil]
  | succ n ih =>
    rw [run_succ n (step_take h), ih _ (State.deliver_inbox _), State.deliver_eq]
    rw [State.withInbox_pending, State.withInbox_delivered, State.withInbox_regs, List.drop_drop, List.append_assoc,
      ← List.map_append, ← List.take_add, Nat.add_comm 1 n]

section
variable {e : Edge}

/-- Under `rst` an edge is a reset and no handshake (R60, R170). -/
theorem Edge.events_of_rst (h : e.rst = true) : e.events = [.reset] := by
  simp [events, delivers, accepts, h]

theorem Edge.events_of_not_rst (h : e.rst = false) : e.events =
    (if e.rspValid = true ∧ e.rspReady = true then [.take] else []) ++
      (if e.cmdValid = true ∧ e.cmdReady = true then [.command e.cmd] else []) := by
  simp [events, delivers, accepts, h]

end

end Sys2Proof.Machine

open Sys2Proof Sys2Proof.Machine

/-- Settles O12: by induction on the number of deliveries. -/
theorem responsesAreDeliveredInOrder : Obligations.ResponsesAreDeliveredInOrder :=
  fun s n rest h => run_take n s rest h

/-- Settles O13: `rst` masks both handshakes and is otherwise no event. -/
theorem edgeEventsFollowTheHandshakes : Obligations.EdgeEventsFollowTheHandshakes :=
  fun _ => ⟨Edge.events_of_rst, Edge.events_of_not_rst⟩

end

section
/-! ## Family 30_encoding: status codes

O21: which command words can produce which status (`30_encoding.md` rule R74, `60_exceptions.md` rule R151). -/

namespace Sys2Proof.Machine

theorem status_convert (q : F64) : (convert q).status = .ok ∨ (convert q).status = .estOor := by
  unfold convert
  split_ifs
  case neg => exact .inl rfl
  all_goals exact .inr rfl

/-- ESTIMATE alone has a second status. -/
theorem status_commandStep (m : Memory) (i : Instr) :
    (commandStep m i).2.status = .ok ∨ (i = .estimate ∧ (commandStep m i).2.status = .estOor) := by
  cases i with
  | estimate => exact (status_convert _).imp_right fun h => ⟨rfl, h⟩
  | nop | clear | split | update | addhash | rdreg | rdalpha => exact .inl rfl

theorem status_commandStep_ne_illegalCmd (m : Memory) (i : Instr) : (commandStep m i).2.status ≠ .illegalCmd := by
  obtain h | ⟨-, h⟩ := status_commandStep m i <;> rw [h] <;> decide

theorem status_wordStep_eq_illegalCmd_iff (m : Memory) (w : PortWord) :
    (wordStep m w).2.status = .illegalCmd ↔ ∃ e, decode w = .error e := by
  cases hd : decode w with
  | ok i =>
    rw [wordStep_of_ok m hd]
    exact iff_of_false (status_commandStep_ne_illegalCmd m i) fun ⟨_, he⟩ => by cases he
  | error e =>
    rw [wordStep_of_error m hd]
    exact iff_of_true rfl ⟨e, rfl⟩

/-- Bit 7 of a code says that the command was not executed (R74). -/
theorem Status.code_bit_seven_iff (c : Status) : c.code.getLsbD 7 = true ↔ c = .illegalCmd := by
  cases c <;> decide

end Sys2Proof.Machine

open Sys2Proof Sys2Proof.Machine

/-- Settles O21: the word's one response is `wordStep`'s, whose status follows the decoder's answer. -/
theorem statusSaysWhatWasDone : Obligations.StatusSaysWhatWasDone := by
  refine ⟨rfl, rfl, rfl, fun w s => ⟨_, (wordStep s.regs w).2, runWord_eq w s, rfl, ?illegal, ?legal, ?bit⟩⟩
  case illegal => exact fun e he => congrArg Prod.snd (wordStep_of_error s.regs he)
  case legal =>
    intro i hi
    rw [wordStep_of_ok s.regs hi]
    exact status_commandStep s.regs i
  case bit => exact (Status.code_bit_seven_iff _).trans (status_wordStep_eq_illegalCmd_iff s.regs w)

end

section
/-! ## Family 40_split_update: index and suffix of a hash

O30: the two fields of `40_split_update.md` rules R80 and R81, in numbers and in bits. -/

namespace Sys2Proof.Machine

theorem hashedAddress_toNat (h : Word64) : (hashedAddress h).toNat = h.toNat / 2 ^ 50 := by
  rw [hashedAddress, BitVec.extractLsb'_toNat, Nat.shiftRight_eq_div_pow, Nat.mod_eq_of_lt (by omega)]

theorem suffix_toNat (h : Word64) : (suffix h).toNat = h.toNat % 2 ^ 50 := by
  rw [suffix, BitVec.extractLsb'_toNat, Nat.shiftRight_zero]

theorem getLsbD_suffix {h : Word64} {j : Nat} (hj : j < 50) : (suffix h).getLsbD j = h.getLsbD j := by
  simp [suffix, hj]

theorem hashedAddress_append_suffix (h : Word64) : hashedAddress h ++ suffix h = h := by
  rw [hashedAddress, suffix, BitVec.extractLsb'_append_extractLsb'_eq_extractLsb' (Nat.zero_add 50).symm,
    BitVec.extractLsb'_eq_self]

theorem hashedAddress_append (i : Index) (x : BitVec 50) : hashedAddress (i ++ x) = i :=
  BitVec.extractLsb'_append_eq_left

end Sys2Proof.Machine

open Sys2Proof Sys2Proof.Machine

/-- Settles O30: the fields are quotient and remainder by `2^50`, and any index may stand above any suffix. -/
theorem hashIsIndexAndSuffix : Obligations.HashIsIndexAndSuffix :=
  ⟨fun h => ⟨hashedAddress_toNat h, suffix_toNat h, hashedAddress_append_suffix h⟩,
    fun i => ⟨i ++ 0#50, hashedAddress_append i 0⟩⟩

end

section
/-! ## Family 40_split_update: the rank

The rank by the first 1 of the suffix, by the logarithm of the suffix, and by the method form (`40_split_update.md` rules
R82, R83, R85). -/

namespace Sys2Proof.Machine

/-! ### The defining form -/

/-- The first 1 of the suffix, from bit 49 down, stands at bit `n` (R82). -/
theorem rank_of_first_one {h : Word64} {n : Nat} (hn : n < 50)
    (hzero : ∀ j, n < j → j < 50 → h.getLsbD j = false) (hone : h.getLsbD n = true) :
    (rank h).toNat = 50 - n := by
  have hclz : clz (suffix h) = 50 - 1 - n :=
    leadingZerosBelow_of_first_one hn (fun j h1 h2 => (getLsbD_suffix h2).trans (hzero j h1 h2))
      ((getLsbD_suffix hn).trans hone)
  rw [rank_toNat, hclz]
  omega

theorem rank_of_zero {h : Word64} (hzero : ∀ j < 50, h.getLsbD j = false) : (rank h).toNat = 51 := by
  have hclz : clz (suffix h) = 50 :=
    leadingZerosBelow_of_zero fun j hj => (getLsbD_suffix hj).trans (hzero j hj)
  rw [rank_toNat, hclz]

theorem one_le_rank (h : Word64) : 1 ≤ (rank h).toNat := by
  rw [rank_toNat]
  exact Nat.le_add_right 1 _

theorem rank_le_rankMax (h : Word64) : (rank h).toNat ≤ Config.rankMax := by
  rw [rank_toNat]
  exact Nat.add_le_add_left (clz_le (suffix h)) 1

/-! ### Leading zeros by the logarithm (R10) -/

theorem clz_zero (w : Nat) : clz (0 : BitVec w) = w :=
  leadingZerosBelow_of_zero fun _ _ => BitVec.getLsbD_zero

/-- The highest 1 of a word that is not zero stands at the floor of its logarithm. -/
theorem clz_eq_log2 {w : Nat} {v : BitVec w} (hv : v.toNat ≠ 0) : clz v = w - 1 - Nat.log2 v.toNat := by
  have hlog : Nat.log2 v.toNat < w := (Nat.log2_lt hv).2 v.isLt
  refine leadingZerosBelow_of_first_one hlog (fun j hj _ => ?above) (Nat.testBit_log2 hv)
  case above => exact Nat.testBit_lt_two_pow ((Nat.log2_lt hv).1 hj)

theorem rank_eq_log2 (h : Word64) :
    (rank h).toNat = if h.toNat % 2 ^ 50 = 0 then 51 else 50 - Nat.log2 (h.toNat % 2 ^ 50) := by
  rw [rank_toNat, ← suffix_toNat]
  split
  case isTrue hz =>
    have hsuffix : suffix h = 0 := BitVec.eq_of_toNat_eq hz
    rw [hsuffix, clz_zero]
  case isFalse hz =>
    have hlog : Nat.log2 (suffix h).toNat < 50 := (Nat.log2_lt hz).2 (suffix h).isLt
    rw [clz_eq_log2 hz]
    omega

/-! ### The method form (R83) -/

theorem getLsbD_rankMask {j : Nat} (hj : j < 64) : rankMask.getLsbD j = decide (j < 14) := by
  have hmask : rankMask = (BitVec.allOnes 14).setWidth 64 := rfl
  rw [hmask, BitVec.getLsbD_setWidth, BitVec.getLsbD_allOnes, decide_eq_true hj, Bool.true_and]

/-- The pattern counted: 14 ones below, the suffix above them. -/
theorem getLsbD_maskPattern {h : Word64} {j : Nat} (hj : j < 64) :
    ((h <<< 14) ^^^ rankMask).getLsbD j = (decide (j < 14) || h.getLsbD (j - 14)) := by
  rw [BitVec.getLsbD_xor, getLsbD_rankMask hj, BitVec.getLsbD_shiftLeft]
  by_cases h14 : j < 14
  · simp [h14]
  · simp [hj, h14]

/-- A count over bits moved up by `d` places is the count over the bits, when it ends at the place below them. -/
theorem leadingZerosBelow_shifted {m n : Nat} {v : BitVec m} {u : BitVec n} {d k : Nat}
    (hbits : ∀ j < k, u.getLsbD (j + d) = v.getLsbD j) (hstop : leadingZerosBelow u d = 0) :
    leadingZerosBelow u (k + d) = leadingZerosBelow v k := by
  induction k with
  | zero => rw [Nat.zero_add, hstop, leadingZerosBelow]
  | succ k ih =>
    rw [Nat.succ_add, leadingZerosBelow, leadingZerosBelow, hbits k k.lt_succ_self,
      ih fun j hj => hbits j (Nat.lt_succ_of_lt hj)]

/-- The ones shifted in stop the count where the suffix ends. -/
theorem rankByMask_eq_rank (h : Word64) : rankByMask h = (rank h).toNat := by
  have hstop : leadingZerosBelow ((h <<< 14) ^^^ rankMask) 14 = 0 := by
    rw [leadingZerosBelow, getLsbD_maskPattern (by decide)]
    rfl
  have hbits : ∀ j < 50, ((h <<< 14) ^^^ rankMask).getLsbD (j + 14) = (suffix h).getLsbD j := by
    intro j hj
    rw [getLsbD_maskPattern (by omega), getLsbD_suffix hj]
    simp
  rw [rankByMask, rank_toNat]
  exact congrArg (1 + ·) (leadingZerosBelow_shifted hbits hstop)

theorem maskPattern_ne_zero (h : Word64) : (h <<< 14) ^^^ rankMask ≠ 0 := by
  intro hzero
  have hbit := getLsbD_maskPattern (h := h) (j := 0) (by decide)
  rw [hzero] at hbit
  exact absurd hbit (by simp)

end Sys2Proof.Machine

open Sys2Proof Sys2Proof.Machine

/-- Settles O31: after `k` leading zeros the first 1 stands at bit `49 - k`. -/
theorem rankCountsLeadingZeros : Obligations.RankCountsLeadingZeros := by
  refine fun h => ⟨fun k hk hzero hone => ?_, rank_of_zero⟩
  have habove : ∀ j, 49 - k < j → j < 50 → h.getLsbD j = false := by
    intro j h1 h2
    have hj := hzero (49 - j) (by omega)
    rwa [Nat.sub_sub_self (Nat.le_of_lt_succ h2)] at hj
  rw [rank_of_first_one (by omega) habove hone]
  omega

/-- Settles O32: the ones of the mask stand below the suffix and end the count there. -/
theorem rankByMaskEqualsRank : Obligations.RankByMaskEqualsRank :=
  ⟨rfl, fun h => ⟨rankByMask_eq_rank h, maskPattern_ne_zero h⟩, by decide⟩

end

section
/-! ## Family 40_split_update: the update primitive

What `40_split_update.md` rules R87 and R89 say of one register raised to a value. -/

namespace Sys2Proof.Machine.Memory

theorem update_of_le {m : Memory} {i : Index} {v : RegValue} (h : v.toNat ≤ (m.read i.toNat).toNat) :
    m.update i v = m := by
  have hlt : ¬ m.read i.toNat < v := by rw [BitVec.lt_def]; omega
  rw [update, if_neg hlt]

theorem le_toNat_read_update_same (m : Memory) (i : Index) (v : RegValue) :
    v.toNat ≤ ((m.update i v).read i.toNat).toNat := by
  rw [toNat_read_update_same]
  exact Nat.le_max_right _ _

theorem update_idem (m : Memory) (i : Index) (v : RegValue) : (m.update i v).update i v = m.update i v :=
  update_of_le (le_toNat_read_update_same m i v)

/-- Equal indices commute because the maximum does, different ones because each leaves the other's register. -/
theorem update_comm {m : Memory} (hm : m.wf = true) (i j : Index) (v u : RegValue) :
    (m.update i v).update j u = (m.update j u).update i v := by
  refine eq_of_read (wf_update j u (wf_update i v hm)) (wf_update i v (wf_update j u hm)) fun k => ?_
  apply BitVec.eq_of_toNat_eq
  simp only [toNat_read_update]
  by_cases hi : k = i
  · by_cases hj : k = j
    · simp only [if_pos hi, if_pos hj]
      exact Nat.max_right_comm _ _ _
    · simp only [if_neg hj]
  · simp only [if_neg hi]

theorem update_zero (m : Memory) (i : Index) : m.update i 0 = m := update_of_le (Nat.zero_le _)

/-- No register value is above 255. -/
theorem eq_255_of_le {v : RegValue} (h : 255 ≤ v.toNat) : v = 255 :=
  BitVec.eq_of_toNat_eq (Nat.le_antisymm (Nat.le_of_lt_succ v.isLt) h)

theorem read_update_255 (m : Memory) (i : Index) : (m.update i 255).read i.toNat = 255 :=
  eq_255_of_le (le_toNat_read_update_same m i 255)

/-- A register that holds 255 keeps it, as no update lowers a register. -/
theorem read_update_of_255 {m : Memory} {i : Index} (h : m.read i.toNat = 255) (j : Index) (u : RegValue) :
    (m.update j u).read i.toNat = 255 := by
  have hle := m.le_toNat_read_update j i u
  rw [h] at hle
  exact eq_255_of_le hle

end Sys2Proof.Machine.Memory

open Sys2Proof Sys2Proof.Machine

/-- Settles O25: the one register is the maximum, the others are framed, a value not larger is no write. -/
theorem updateRaisesOneRegister : Obligations.UpdateRaisesOneRegister := fun index value s =>
  ⟨_, exec_eq (.update index value) s, s.regs.toNat_read_update_same index value,
    fun _ ha => s.regs.read_update_other index value ha, Memory.update_of_le, rfl, rfl, rfl⟩

/-- Settles O35: the laws of the maximum on each register, and equal registers are equal arrays. -/
theorem updateLawsHold : Obligations.UpdateLawsHold := fun m i j v u hm =>
  ⟨m.le_toNat_read_update i j v, m.update_idem i v, Memory.update_comm hm i j v u, m.update_zero i,
    m.read_update_255 i, Memory.read_update_of_255 (m.read_update_255 i) j u⟩

end

section
/-! ## Family 40_split_update: SPLIT and ADDHASH

The commands on a hash (`40_split_update.md` rules R84, R85, R91, R93): the splitter, then the update primitive. -/

namespace Sys2Proof

/-- A command word in numbers (R61). -/
theorem encode_toNat (i : Instr) : (encode i).toNat = i.opcode.toNat * 2 ^ 64 + i.operand.toNat := by
  rw [encode, BitVec.toNat_append, ← Nat.shiftLeft_add_eq_or_of_lt i.operand.isLt, Nat.shiftLeft_eq]

end Sys2Proof

namespace Sys2Proof.Machine

/-- ADDHASH on the register of the hash (R91). -/
theorem Memory.toNat_read_addHash_same (m : Memory) (h : Word64) :
    ((m.addHash h).read (hashedAddress h).toNat).toNat =
      max (m.read (hashedAddress h).toNat).toNat (rank h).toNat := by
  rw [Memory.addHash, Memory.toNat_read_update_same, rankValue_toNat]

theorem Memory.one_le_read_addHash (m : Memory) (h : Word64) :
    1 ≤ ((m.addHash h).read (hashedAddress h).toNat).toNat := by
  rw [Memory.toNat_read_addHash_same]
  exact (one_le_rank h).trans (Nat.le_max_right _ _)

theorem Memory.addHash_idem (m : Memory) (h : Word64) : (m.addHash h).addHash h = m.addHash h :=
  m.update_idem _ _

/-- SPLIT's data is laid out as UPDATE's operand (R93). -/
theorem splitData_eq_operand (r : Rank) (i : Index) : splitData r i = (Instr.update i (rankValue r)).operand := by
  apply BitVec.eq_of_toNat_eq
  rw [splitData_toNat, operand_update_toNat, rankValue_toNat]

theorem decode_update_splitData (r : Rank) (i : Index) :
    decode (0x03#8 ++ splitData r i) = .ok (.update i (rankValue r)) := by
  rw [splitData_eq_operand]
  exact decode_encode (.update i (rankValue r))

end Sys2Proof.Machine

open Sys2Proof Sys2Proof.Machine

/-- Settles O24: the layout gives `r * 65536 + i`, and `rank_eq_log2` and `hashedAddress_toNat` the two numbers. -/
theorem splitAnswersRankAndIndex : Obligations.SplitAnswersRankAndIndex := by
  intro h s
  refine ⟨splitData (rank h) (hashedAddress h), exec_eq (.split h) s, ?data, encode_toNat (.split h), ?_, ?_, ?_⟩
  case data => rw [splitData_toNat, rank_eq_log2, hashedAddress_toNat]
  all_goals
    rintro rfl
    decide

/-- Settles O26: ADDHASH is one update at the hash's index, and a second one with the same value writes nothing. -/
theorem addhashRaisesTheRegisterOfTheHash : Obligations.AddhashRaisesTheRegisterOfTheHash := by
  intro h s
  refine ⟨_, exec_eq (.addhash h) s, s.regs.toNat_read_addHash_same h, s.regs.one_le_read_addHash h, ?others,
    rfl, rfl, rfl, ?again⟩
  case others =>
    intro a ha
    exact s.regs.read_update_other _ _ (hashedAddress_toNat h ▸ ha)
  case again =>
    rw [exec_eq]
    simp only [commandStep, Memory.addHash_idem]

/-- Settles O33: both ends are read off the suffix, and a register that holds a rank or more is not 0. -/
theorem rankIsOneToFiftyOne : Obligations.RankIsOneToFiftyOne := by
  refine fun h => ⟨one_le_rank h, rank_le_rankMax h, rankValue_toNat _, ?first, ?last, ?stored⟩
  case first => exact rank_of_first_one (by decide) fun _ h1 h2 => absurd h2 (by omega)
  case last =>
    intro hz
    rw [rank_eq_log2, if_pos hz]
  case stored =>
    intro m hread
    have hle := m.one_le_read_addHash h
    rw [hashedAddress_toNat, hread] at hle
    exact absurd hle (by decide)

/-- Settles O34: SPLIT's data is the operand of the UPDATE that ADDHASH makes. -/
theorem splitThenUpdateIsAddhash : Obligations.SplitThenUpdateIsAddhash := fun h s =>
  ⟨splitData (rank h) (hashedAddress h), hashedAddress h, rankValue (rank h), _, _, exec_eq (.split h) s,
    decode_update_splitData _ _, exec_eq (.update _ _) s, exec_eq (.addhash h) s, rfl⟩

end

section
/-! ## Family 41_estimator: ESTIMATE as a function of the registers

O54: the response is a function of what the registers read (`41_estimator.md` rule R117). -/

namespace Sys2Proof.Machine

/-- ESTIMATE appends the estimate of the registers and changes nothing else (R118). -/
theorem exec_estimate (s : State) :
    exec .estimate s = .next { s with pending := s.pending ++ [estimate s.regs] } := exec_eq .estimate s

end Sys2Proof.Machine

open Sys2Proof Sys2Proof.Machine

/-- Settles O54: the response is the estimate of the registers, which ESTIMATE leaves as they are. -/
theorem estimateIsAFunctionOfTheRegisters : Obligations.EstimateIsAFunctionOfTheRegisters := by
  intro s s' h
  have hsame : estimate s'.regs = estimate s.regs := (estimate_congr h).symm
  refine ⟨estimate s.regs, exec_estimate s, ?_, exec_estimate { s with pending := s.pending ++ [estimate s.regs] }⟩
  rw [exec_estimate, hsame]

end

section
/-! ## Family 41_estimator: the estimate written out

O27: `partialSum`, `zerosBelow` and `convert` are the fold, the count and the comparisons of `41_estimator.md` rule R118. -/

namespace Sys2Proof.Machine

open F64

theorem partialSum_eq_foldl (f : Nat → RegValue) (k : Nat) :
    partialSum f k = (List.range k).foldl (fun acc i => fadd acc (pow2neg (f i))) plusZero := by
  induction k with
  | zero => rfl
  | succ k ih => rw [partialSum, ih, List.range_succ, List.foldl_append, List.foldl_cons, List.foldl_nil]

theorem zerosBelow_eq_length_filter (f : Nat → RegValue) (k : Nat) :
    zerosBelow f k = ((List.range k).filter (fun i => f i = 0)).length := by
  induction k with
  | zero => rfl
  | succ k ih =>
    rw [zerosBelow, ih, List.range_succ, List.filter_append, List.length_append, List.filter_singleton]
    by_cases h : f k = 0
    · rw [if_pos h, decide_eq_true h]
      rfl
    · rw [if_neg h, decide_eq_false h]
      rfl

/-! ### The tests of the conversion in rational numbers (R114, R115) -/

/-- What is not NaN is a number or an infinity. -/
theorem isFinite_eq_not_isInf {q : F64} (hn : isNaN q = false) : isFinite q = !isInf q := by
  unfold isNaN at hn
  unfold isInf isFinite
  by_cases he : expField q = 2047
  · by_cases hf : fraction q = 0 <;> simp_all
  · simp [bne, beq_eq_false_iff_ne.2 he]

theorem eq_infinity_iff {q : F64} {n : Bool} : q = infinity n ↔ isInf q = true ∧ sign q = n := by
  constructor
  · rintro rfl
    exact ⟨isInf_infinity n, sign_infinity n⟩
  · rintro ⟨h, rfl⟩
    rw [isInf, Bool.and_eq_true, beq_iff_eq, beq_iff_eq, expField_eq, fraction_eq] at h
    refine ext_sign_low (sign_infinity _).symm ?_
    rw [infinity, low_ofSignMag (by omega)]
    omega

/-- A value of `k` or more is a magnitude of `k * 2^1074` units or more. -/
theorem le_toRat_iff {q : F64} {k : Nat} (hk : 0 < k) :
    (k : ℚ) ≤ toRat q ↔ sign q = false ∧ k * 2 ^ 1074 ≤ magnitude q := by
  have hmag : (k : ℚ) ≤ (magnitude q : ℚ) / 2 ^ 1074 ↔ k * 2 ^ 1074 ≤ magnitude q := by
    rw [le_div_iff₀ unit_pos, ← Nat.cast_le (α := ℚ), Nat.cast_mul, Nat.cast_pow, Nat.cast_ofNat]
  have hk' : (0 : ℚ) < k := Nat.cast_pos.2 hk
  have hnonneg : (0 : ℚ) ≤ (magnitude q : ℚ) / 2 ^ 1074 := div_nonneg (Nat.cast_nonneg _) unit_pos.le
  rw [toRat_eq_signed]
  cases sign q with
  | false => rw [signed_false, hmag, eq_self_iff_true, true_and]
  | true =>
    rw [signed_true]
    exact iff_of_false ((neg_nonpos.2 hnonneg).trans_lt hk').not_ge fun h => Bool.noConfusion h.1

theorem tooLarge_iff {q : F64} (hn : isNaN q = false) :
    tooLarge q = true ↔ q = infinity false ∨ (isFinite q = true ∧ 2 ^ 64 ≤ toRat q) := by
  have hle := le_toRat_iff (q := q) (k := 2 ^ 64) (by decide)
  rw [Nat.cast_pow, Nat.cast_ofNat] at hle
  rw [eq_infinity_iff, hle, tooLarge, isFinite_eq_not_isInf hn]
  generalize 2 ^ 64 * 2 ^ 1074 = bound
  cases isInf q <;> cases sign q <;> simp

theorem tooSmall_iff {q : F64} (hn : isNaN q = false) :
    tooSmall q = true ↔ q = infinity true ∨ (isFinite q = true ∧ toRat q ≤ -1) := by
  have hle := le_toRat_iff (q := neg q) (k := 1) Nat.one_pos
  rw [Nat.cast_one, toRat_neg, le_neg, sign_neg, magnitude_neg, Nat.one_mul] at hle
  rw [eq_infinity_iff, hle, tooSmall, isFinite_eq_not_isInf hn]
  generalize 2 ^ 1074 = bound
  cases isInf q <;> cases sign q <;> simp

/-- Above `-1` the truncation is the floor, of which a negative one counts as 0 (R114). -/
theorem toNat_floor_toRat {q : F64} (h : -1 < toRat q) : ⌊toRat q⌋.toNat = truncate q := by
  have hdiv : ⌊(magnitude q : ℚ) / 2 ^ 1074⌋.toNat = magnitude q / 2 ^ 1074 := by
    have hfloor := Nat.floor_div_eq_div (K := ℚ) (magnitude q) (2 ^ 1074)
    rw [Nat.cast_pow, Nat.cast_ofNat] at hfloor
    exact (Int.floor_toNat _).trans hfloor
  rw [toRat_eq_signed] at h ⊢
  rw [truncate]
  cases hs : sign q with
  | false => rw [signed_false, hdiv]
  | true =>
    rw [hs, signed_true] at h
    have hsmall : magnitude q < 2 ^ 1074 := by
      rw [neg_lt_neg_iff, div_lt_one unit_pos] at h
      exact_mod_cast h
    have hnonneg : (0 : ℚ) ≤ (magnitude q : ℚ) / 2 ^ 1074 := div_nonneg (Nat.cast_nonneg _) unit_pos.le
    have hfloor : ⌊-((magnitude q : ℚ) / 2 ^ 1074)⌋ ≤ 0 := Int.floor_nonpos (neg_nonpos.2 hnonneg)
    rw [signed_true, Int.toNat_of_nonpos hfloor, Nat.div_eq_of_lt hsmall]

/-- The conversion by the comparisons and the floor of R118. -/
theorem convert_eq (q : F64) : convert q =
    if isNaN q = true then ⟨.estOor, 0⟩
    else if q = infinity false ∨ (isFinite q = true ∧ 2 ^ 64 ≤ toRat q) then ⟨.estOor, 0xFFFFFFFFFFFFFFFF⟩
    else if q = infinity true ∨ (isFinite q = true ∧ toRat q ≤ -1) then ⟨.estOor, 0⟩
    else ⟨.ok, BitVec.ofNat 64 ⌊toRat q⌋.toNat⟩ := by
  unfold convert
  cases hn : isNaN q with
  | true => rfl
  | false =>
    simp only [Bool.false_eq_true, if_false, ← tooLarge_iff hn, ← tooSmall_iff hn]
    split
    case isTrue => rfl
    case isFalse hlarge =>
      split
      case isTrue => rfl
      case isFalse hsmall =>
        have hfinite : isFinite q = true := by
          rw [isFinite_eq_not_isInf hn]
          cases hi : isInf q with
          | false => rfl
          | true =>
            have hq : q = infinity (sign q) := eq_infinity_iff.2 ⟨hi, rfl⟩
            cases hs : sign q with
            | false => exact absurd ((tooLarge_iff hn).2 (.inl (hs ▸ hq))) hlarge
            | true => exact absurd ((tooSmall_iff hn).2 (.inl (hs ▸ hq))) hsmall
        rw [tooSmall_iff hn] at hsmall
        rw [toNat_floor_toRat (not_le.1 fun h => hsmall (.inr ⟨hfinite, h⟩))]

end Sys2Proof.Machine

open Sys2Proof Sys2Proof.Machine

/-- Settles O27: the walk is a fold, the zero count a filter's length, and `convert_eq` the conversion. -/
theorem estimateComputesTheFormula : Obligations.EstimateComputesTheFormula := by
  intro s sum ez
  have hsum : harmonicSum s.regs.read = sum := partialSum_eq_foldl s.regs.read 16384
  have hez : zeroCount s.regs.read = ez := zerosBelow_eq_length_filter s.regs.read 16384
  intro ezf zl p1 p2 p3 p4 p5 p6 p7 beta num den q r
  have hq : quotient ln64 ez sum = q := rfl
  have hr : estimate s.regs = r := by rw [estimate, estimateWith, hsum, hez, hq, convert_eq]
  rw [exec_estimate, hr]

end

section
/-! ## Family 41_estimator: the coefficients

O49: `lit` rounds the literal once, and rounding is to nearest even (`41_estimator.md` rule R104). -/

namespace Sys2Proof.Machine.F64

theorem two_pow_lt_overflow_bound {k : Nat} (hk : k ≤ 1023) : (2 : ℚ) ^ k < 2 ^ 1024 - 2 ^ 970 :=
  calc (2 : ℚ) ^ k ≤ 2 ^ 1023 := pow_le_pow_right₀ one_le_two hk
    _ = 2 ^ 1024 - 2 ^ 1023 := by rw [pow_succ (2 : ℚ) 1023, mul_two, add_sub_cancel_right]
    _ < 2 ^ 1024 - 2 ^ 970 := sub_lt_sub_left (pow_lt_pow_right₀ one_lt_two (by decide)) _

/-- A result of at most `2^1023` in magnitude does not overflow. -/
theorem Rounded.nearestEven {q : ℚ} {x : F64} (h : Rounded q x) {k : Nat} (hk : k ≤ 1023) (hq : |q| ≤ 2 ^ k) :
    NearestEven q x := h.1 (hq.trans_lt (two_pow_lt_overflow_bound hk))

/-- A decimal literal of at most 1 is converted to a nearest binary64, the even one on a tie (R11). -/
theorem nearestEven_lit (n : Bool) {digits places : Nat} (h : digits ≤ 10 ^ places) :
    NearestEven (signed n (digits / 10 ^ places : ℚ)) (lit n digits places) := by
  have hround := rounded_roundRatio n (digits * 2 ^ 1074) (Nat.pow_pos (n := places) (show 0 < 10 by decide))
  have hvalue : ((digits * 2 ^ 1074 : Nat) / (10 ^ places : Nat) : ℚ) / 2 ^ 1074 = digits / 10 ^ places := by
    rw [Nat.cast_mul, Nat.cast_pow, Nat.cast_ofNat, Nat.cast_pow, Nat.cast_ofNat, div_right_comm,
      mul_div_cancel_right₀ _ unit_pos.ne']
  rw [hvalue] at hround
  have hnonneg : (0 : ℚ) ≤ digits / 10 ^ places := by positivity
  have hle : |(digits / 10 ^ places : ℚ)| ≤ 2 ^ 0 := by
    rw [abs_of_nonneg hnonneg, pow_zero, div_le_one (by positivity)]
    exact_mod_cast h
  refine hround.nearestEven (Nat.zero_le 1023) ?_
  cases n with
  | false => rwa [signed_false]
  | true => rwa [signed_true, abs_neg]

end Sys2Proof.Machine.F64

namespace Sys2Proof.Machine

open F64

theorem coefficients_eq_lit :
    C1 = lit true 370393911 9 ∧ C2 = lit false 70471823 9 ∧ C3 = lit false 17393686 8 ∧ C4 = lit false 16339839 8 ∧
      C5 = lit true 9237745 8 ∧ C6 = lit false 3738027 8 ∧ C7 = lit true 5384159 9 ∧ C8 = lit false 42419 8 := by
  decide +kernel

end Sys2Proof.Machine

open Sys2Proof Sys2Proof.Machine

/-- Settles O49: each pattern is what `lit` gives for its literal. -/
theorem coefficientsAreNearestToTheirLiterals : Obligations.CoefficientsAreNearestToTheirLiterals := by
  obtain ⟨h1, h2, h3, h4, h5, h6, h7, h8⟩ := coefficients_eq_lit
  have hneg (digits places : Nat) (h : digits ≤ 10 ^ places) :
      F64.NearestEven (-digits / 10 ^ places : ℚ) (F64.lit true digits places) :=
    neg_div (10 ^ places : ℚ) (digits : ℚ) ▸ F64.nearestEven_lit true h
  have hpos (digits places : Nat) (h : digits ≤ 10 ^ places) :
      F64.NearestEven (digits / 10 ^ places : ℚ) (F64.lit false digits places) := F64.nearestEven_lit false h
  rw [Obligations.CoefficientsAreNearestToTheirLiterals, h1, h2, h3, h4, h5, h6, h7, h8]
  exact ⟨hneg 370393911 9 (by decide), hpos 70471823 9 (by decide), hpos 17393686 8 (by decide),
    hpos 16339839 8 (by decide), hneg 9237745 8 (by decide), hpos 3738027 8 (by decide),
    hneg 5384159 9 (by decide), hpos 42419 8 (by decide)⟩

end

section
/-! ## Family 41_estimator: the sum where no addition rounds

O52: below 40 the exact sum in units of `2^-39` fits 53 bits, so folds and trees give the pattern of the exact sum
(`41_estimator.md` rule R102). -/

namespace Sys2Proof.Machine

open F64

/-- The pattern has sign `+` and stands for `n * 2^(-R)` exactly. -/
def F64.IsExactly (R n : Nat) (x : F64) : Prop :=
  isFinite x = true ∧ sign x = false ∧ magnitude x = n * 2 ^ (1074 - R)

/-- There is one pattern of sign `+` for a value. -/
theorem F64.IsExactly.unique {R n : Nat} {x y : F64} (hx : IsExactly R n x) (hy : IsExactly R n y) : x = y := by
  obtain ⟨-, hsx, hmx⟩ := hx
  obtain ⟨-, hsy, hmy⟩ := hy
  exact ext_sign_magnitude (hsx.trans hsy.symm) (hmx.trans hmy.symm)

theorem F64.IsExactly.toRat_eq {R n : Nat} (hR : R ≤ 1074) {x : F64} (hx : IsExactly R n x) :
    toRat x = n / 2 ^ R := by
  obtain ⟨-, hs, hm⟩ := hx
  rw [toRat_eq_signed, hs, signed_false, hm, Nat.cast_mul, Nat.cast_pow, Nat.cast_ofNat, pow_sub₀ _ two_ne_zero hR,
    mul_div_assoc, mul_div_cancel_left₀ _ unit_pos.ne', div_eq_mul_inv]

/-- One term added to an exact sum, where the result fits 53 bits. -/
theorem F64.IsExactly.fadd_pow2neg {R n : Nat} (hR : R ≤ 1074) {x : F64} (hx : IsExactly R n x) {r : RegValue}
    (hr : r.toNat ≤ R) (hsum : n + 2 ^ (R - r.toNat) ≤ 2 ^ 53) :
    IsExactly R (n + 2 ^ (R - r.toNat)) (fadd x (pow2neg r)) := by
  obtain ⟨hfinite, hsign, hmag⟩ := hx
  have hunits : magnitude x + 2 ^ (1074 - r.toNat) = (n + 2 ^ (R - r.toNat)) * 2 ^ (1074 - R) * 1 := by
    rw [hmag, Nat.add_mul, ← pow_add, Nat.mul_one, show R - r.toNat + (1074 - R) = 1074 - r.toNat by omega]
  obtain ⟨hno, hexact⟩ := magnitude_roundRatio_exact (neg := false) (m := n + 2 ^ (R - r.toNat)) (e := 1074 - R)
    hsum (by omega) Nat.one_pos
  rw [fadd_nonneg hfinite (isFinite_pow2neg r) hsign (sign_pow2neg r), magnitude_pow2neg, hunits]
  exact ⟨isFinite_roundRatio hno, sign_roundRatio hno, hexact⟩

theorem exactTerms_cons (R : Nat) (f : Nat → RegValue) (i : Nat) (indices : List Nat) :
    exactTerms R f (i :: indices) = 2 ^ (R - (f i).toNat) + exactTerms R f indices := List.sum_cons

/-- Terms not smaller than `2^(-R)` added in any order to an exact start: no addition rounds while the exact result is at
most `2^53` in units of `2^(-R)` (R102). -/
theorem foldl_fadd_exact {R : Nat} (hR : R ≤ 1074) {f : Nat → RegValue} {order : List Nat} {x : F64} {n : Nat}
    (hx : IsExactly R n x) (hf : ∀ i ∈ order, (f i).toNat ≤ R) (hsum : n + exactTerms R f order ≤ 2 ^ 53) :
    IsExactly R (n + exactTerms R f order) (order.foldl (fun acc i => fadd acc (pow2neg (f i))) x) := by
  induction order generalizing x n with
  | nil => exact hx
  | cons i order ih =>
    rw [exactTerms_cons, ← Nat.add_assoc] at hsum ⊢
    have hstep := hx.fadd_pow2neg hR (hf i List.mem_cons_self) ((Nat.le_add_right _ _).trans hsum)
    exact ih hstep (fun j hj => hf j (List.mem_cons_of_mem i hj)) hsum

theorem exactTerms_le (R : Nat) (f : Nat → RegValue) (indices : List Nat) :
    exactTerms R f indices ≤ indices.length * 2 ^ R := by
  induction indices with
  | nil => exact Nat.zero_le _
  | cons i indices ih =>
    have hterm : 2 ^ (R - (f i).toNat) ≤ 2 ^ R := Nat.pow_le_pow_right two_pos (Nat.sub_le _ _)
    rw [exactTerms_cons, List.length_cons, Nat.succ_mul, Nat.add_comm]
    exact Nat.add_le_add ih hterm

/-- The exact sum in units of `2^(-R)` against the sum of the rational numbers. -/
theorem exactTerms_div {R : Nat} {f : Nat → RegValue} {indices : List Nat} (hf : ∀ i ∈ indices, (f i).toNat ≤ R) :
    (exactTerms R f indices : ℚ) / 2 ^ R = (indices.map fun i => (1 : ℚ) / 2 ^ (f i).toNat).sum := by
  induction indices with
  | nil => exact zero_div _
  | cons i indices ih =>
    have hterm : ((2 ^ (R - (f i).toNat) : Nat) : ℚ) / 2 ^ R = 1 / 2 ^ (f i).toNat := by
      rw [Nat.cast_pow, Nat.cast_ofNat, pow_sub₀ _ two_ne_zero (hf i List.mem_cons_self)]
      field_simp
    rw [exactTerms_cons, Nat.cast_add, add_div, hterm, ih fun j hj => hf j (List.mem_cons_of_mem i hj), List.map_cons,
      List.sum_cons]

theorem isExactly_plusZero (R : Nat) : IsExactly R 0 plusZero :=
  ⟨isFinite_plusZero, sign_plusZero, by rw [magnitude_plusZero, Nat.zero_mul]⟩

/-- What is read at the indices below 16384 are the registers. -/
theorem forall_read_of_forall_reg {s : State} {P : RegValue → Prop} (h : ∀ i : Index, P (s.reg i)) {a : Nat}
    (ha : a < Config.numRegs) : P (s.regs.read a) := by
  have hindex : (BitVec.ofNat 14 a).toNat = a := toNat_ofNat_of_lt ha
  have := h (BitVec.ofNat 14 a)
  rwa [State.reg, hindex] at this

end Sys2Proof.Machine

open Sys2Proof Sys2Proof.Machine

/-- Settles O52: the exact sum is at most `2^14 * 2^39` units of `2^-39`, and one pattern stands for it. -/
theorem sumIsExactInAnyOrderUpToThirtyNine : Obligations.SumIsExactInAnyOrderUpToThirtyNine := by
  intro s hs
  have hR : 39 ≤ 1074 := by decide
  have hf : ∀ i ∈ List.range 16384, (s.regs.read i).toNat ≤ 39 := fun i hi =>
    forall_read_of_forall_reg (P := fun v => v.toNat ≤ 39) hs (List.mem_range.1 hi)
  have hsum : exactTerms 39 s.regs.read (List.range 16384) ≤ 2 ^ 53 := by
    have h := exactTerms_le 39 s.regs.read (List.range 16384)
    rwa [List.length_range] at h
  have hfold (order : List Nat) (horder : order.Perm (List.range 16384)) :
      F64.IsExactly 39 (exactTerms 39 s.regs.read (List.range 16384))
        (order.foldl (fun acc i => F64.fadd acc (F64.pow2neg (s.regs.read i))) F64.plusZero) := by
    rw [← exactTerms_perm 39 s.regs.read horder] at hsum ⊢
    have h := foldl_fadd_exact hR (isExactly_plusZero 39) (fun i hi => hf i (horder.mem_iff.1 hi))
      (by rwa [Nat.zero_add])
    rwa [Nat.zero_add] at h
  have hwalk : F64.IsExactly 39 (exactTerms 39 s.regs.read (List.range 16384)) (harmonicSum s.regs.read) := by
    rw [harmonicSum, partialSum_eq_foldl]
    exact hfold _ (List.Perm.refl _)
  refine ⟨fun order horder => (hfold order horder).unique hwalk, fun tree htree => ?tree, ?exact⟩
  case tree =>
    rw [← exactTerms_perm 39 s.regs.read htree] at hsum hwalk
    exact F64.IsExactly.unique (tree.sum_exact hR (fun i hi => hf i (htree.mem_iff.1 hi)) hsum) hwalk
  case exact => rw [hwalk.toRat_eq hR, exactTerms_div hf]

end

section
/-! ## Family 41_estimator: no zero register

O53: `41_estimator.md` rule R110 (a), by kernel evaluation once the logarithm of 1 is `+0.0`. -/

namespace Sys2Proof.Machine

open F64

/-- The logarithm's argument `ez + 1` is exact (R105). -/
theorem fadd_u2f_one {n : Nat} (h : n < 2 ^ 53) : fadd (u2f n) one = u2f (n + 1) := by
  have hone : one = u2f 1 := by decide +kernel
  have hmag : magnitude (u2f n) + magnitude (u2f 1) = (n + 1) * 2 ^ 1074 := by
    rw [magnitude_u2f h.le, magnitude_u2f (by decide), ← Nat.add_mul]
  rw [hone, fadd_nonneg (isFinite_u2f h.le) (isFinite_u2f (by decide)) (sign_u2f h.le) (sign_u2f (by decide)), hmag,
    u2f]

theorem argument_u2f {n : Nat} (h1 : 1 ≤ n) (h2 : n ≤ 16385) : Log.argument (u2f n) = some n := by
  have hmag : magnitude (u2f n) / 2 ^ 1074 = n := by
    rw [magnitude_u2f (by omega), Nat.mul_div_cancel _ (Nat.two_pow_pos 1074)]
  rw [Log.argument, hmag, if_pos ⟨h1, h2, rfl⟩]

/-- `LN64` at an argument other than 1 is one of the two neighbours (R107 P2). -/
theorem ln64_of_argument {x : F64} {n : Nat} (hx : Log.argument x = some n) (hn : n ≠ 1) :
    ln64 x = if Config.lnRoundsUp x then Log.lnUp n else Log.lnDown n := by
  unfold ln64
  split
  case h_1 h => exact absurd (Option.some.inj (hx.symm.trans h)) hn
  case h_2 m _ h =>
    obtain rfl : n = m := Option.some.inj (hx.symm.trans h)
    rfl
  case h_3 h => cases hx.symm.trans h

/-- P1 of R107. -/
theorem ln64_of_argument_one {x : F64} (hx : Log.argument x = some 1) : ln64 x = plusZero := by
  unfold ln64
  split
  case h_1 => rfl
  case h_2 m hm h => exact absurd (Option.some.inj (h.symm.trans hx)) hm
  case h_3 h => cases hx.symm.trans h

theorem ln64_one : ln64 (u2f 1) = plusZero := ln64_of_argument_one (argument_u2f (by decide) (by decide))

theorem ln64_cases {n : Nat} (h1 : 2 ≤ n) (h2 : n ≤ 16385) :
    ln64 (u2f n) = Log.lnDown n ∨ ln64 (u2f n) = Log.lnUp n := by
  rw [ln64_of_argument (argument_u2f (one_le_two.trans h1) h2) (by omega)]
  split
  case isTrue => exact .inr rfl
  case isFalse => exact .inl rfl

theorem beta_eq (ln : F64 → F64) {ez : Nat} (h : ez ≤ Config.numRegs) :
    beta ln ez = betaOf (u2f ez) (ln (u2f (ez + 1))) := by
  rw [beta, fadd_u2f_one (h.trans_lt (by decide))]

theorem beta_zero : beta ln64 0 = plusZero := by
  rw [beta_eq ln64 (Nat.zero_le _), ln64_one]
  decide +kernel

end Sys2Proof.Machine

open Sys2Proof Sys2Proof.Machine

/-- Settles O53: the terms after the first are zeros, and `-0.0 + 0.0 = +0.0`. -/
theorem betaIsPlusZeroWithoutZeroRegisters : Obligations.BetaIsPlusZeroWithoutZeroRegisters :=
  ⟨by decide +kernel, beta_zero⟩

end

section
/-! ## Family 41_estimator: sketches in which every register holds one value

O56: the exact sum is `16384 * 2^(-v)`, and what follows it is one evaluation per value (`41_estimator.md` rules R118,
R119). -/

namespace Sys2Proof.Machine

open F64

theorem zerosBelow_eq_zero {f : Nat → RegValue} {k : Nat} (h : ∀ i < k, f i ≠ 0) : zerosBelow f k = 0 := by
  rw [zerosBelow_eq_length_filter, List.length_eq_zero_iff, List.filter_eq_nil_iff]
  intro i hi
  rw [decide_eq_true_eq]
  exact h i (List.mem_range.1 hi)

/-- Terms that are all one unit add up to their number. -/
theorem exactSum_units {R : Nat} {f : Nat → RegValue} {k : Nat} (h : ∀ i < k, (f i).toNat = R) :
    exactSum R f k = k := by
  induction k with
  | zero => rfl
  | succ k ih =>
    rw [exactSum, ih fun i hi => h i (Nat.lt_succ_of_lt hi), h k k.lt_succ_self, Nat.sub_self, pow_zero]

/-- The sum of 16384 registers that all hold `v` (R101, exact by R102). -/
theorem harmonicSum_const (v : RegValue) :
    harmonicSum (fun _ => v) = roundRatio false (16384 * 2 ^ (1074 - v.toNat)) 1 := by
  have hexact : exactSum v.toNat (fun _ => v) Config.numRegs = 16384 := exactSum_units fun _ _ => rfl
  have hsum := partialSum_eq_of_exact (R := v.toNat) (f := fun _ => v) (k := Config.numRegs)
    (v.isLt.le.trans (by decide)) (fun _ _ => Nat.le_refl _) (by rw [hexact]; decide)
  rwa [hexact] at hsum

/-- The estimate of a sketch whose registers all hold `v`, with nothing left but the quotient and its conversion. -/
theorem estimate_uniform {s : State} {v : RegValue} (hv : v ≠ 0) (h : ∀ i : Index, s.reg i = v) :
    estimate s.regs = convert (fdiv (numerator 0)
      (fadd plusZero (roundRatio false (16384 * 2 ^ (1074 - v.toNat)) 1))) := by
  have hreads : ∀ a < Config.numRegs, s.regs.read a = v := fun a ha =>
    forall_read_of_forall_reg (P := fun u => u = v) h ha
  have hzero : zeroCount (fun _ => v) = 0 := zerosBelow_eq_zero fun _ _ => hv
  rw [estimate, estimateWith_congr ln64 hreads, estimateWith, hzero, harmonicSum_const, quotient, denominator, beta_zero]

end Sys2Proof.Machine

open Sys2Proof Sys2Proof.Machine

/-- Settles O56: six evaluations of `estimate_uniform`. -/
theorem uniformSketchesHaveTheirEstimates : Obligations.UniformSketchesHaveTheirEstimates := by
  refine fun s => ⟨estimate s.regs, exec_estimate s, ?_, ?_, ?_, ?_, ?_, ?_⟩
  all_goals
    intro h
    rw [estimate_uniform (by decide) h]
    decide +kernel

end

section
/-! ## Family 41_estimator: bounds of a rounded result -/

namespace Sys2Proof.Machine.F64

/-- A number has a value below the overflow bound. -/
theorem abs_toRat_lt_overflow_bound {x : F64} (hx : isFinite x = true) : |toRat x| < 2 ^ 1024 - 2 ^ 970 := by
  have hlow : roundLow (magnitude x) 1 < 2047 * 2 ^ 52 := by
    rw [roundLow_magnitude]
    exact (isFinite_iff x).1 hx
  have hmag := (roundLow_lt_iff Nat.one_pos).1 hlow
  rw [Nat.cast_one, div_one] at hmag
  have hnonneg : (0 : ℚ) ≤ (magnitude x : ℚ) / 2 ^ 1074 := div_nonneg (Nat.cast_nonneg _) unit_pos.le
  rw [toRat_eq_signed]
  cases sign x with
  | false => rwa [signed_false, abs_of_nonneg hnonneg]
  | true => rwa [signed_true, abs_neg, abs_of_nonneg hnonneg]

/-- Rounding does not leave an interval whose ends are patterns. -/
theorem Rounded.between {q : ℚ} {x lo hi : F64} (h : Rounded q x) (hlo : isFinite lo = true) (hhi : isFinite hi = true)
    (hle : toRat lo ≤ q) (hge : q ≤ toRat hi) :
    isFinite x = true ∧ toRat lo ≤ toRat x ∧ toRat x ≤ toRat hi := by
  have hq : |q| < 2 ^ 1024 - 2 ^ 970 := by
    have h1 := abs_lt.1 (abs_toRat_lt_overflow_bound hlo)
    have h2 := abs_lt.1 (abs_toRat_lt_overflow_bound hhi)
    exact abs_lt.2 ⟨h1.1.trans_le hle, hge.trans_lt h2.2⟩
  obtain ⟨hx, hnear⟩ := h.1 hq
  have hl := (hnear lo hlo).1
  have hh := (hnear hi hhi).1
  refine ⟨hx, ?_, ?_⟩
  · by_contra hc
    rw [abs_of_nonpos (by linarith), abs_of_nonpos (by linarith)] at hl
    linarith
  · by_contra hc
    rw [abs_of_nonneg (by linarith), abs_of_nonneg (by linarith)] at hh
    linarith

/-- The quotient of a number by a positive number, between bounds of the exact quotient that are patterns. -/
theorem fdiv_between {a b lo hi : F64} (ha : isFinite a = true) (hb : isFinite b = true) (hpos : 0 < toRat b)
    (hlo : isFinite lo = true) (hhi : isFinite hi = true)
    (hle : toRat lo * toRat b ≤ toRat a) (hge : toRat a ≤ toRat hi * toRat b) :
    isFinite (fdiv a b) = true ∧ toRat lo ≤ toRat (fdiv a b) ∧ toRat (fdiv a b) ≤ toRat hi :=
  (rounded_fdiv ha hb hpos.ne').between hlo hhi ((le_div_iff₀ hpos).2 hle) ((div_le_iff₀ hpos).2 hge)

end Sys2Proof.Machine.F64

namespace Sys2Proof.Machine

open F64

/-- A quotient between two consecutive naturals below `2^64` is in range and truncates to the lower one (R114). -/
theorem convert_of_floor {q : F64} {n : Nat} (hq : isFinite q = true) (hle : (n : ℚ) ≤ toRat q) (hlt : toRat q < n + 1)
    (hn : n < 2 ^ 64) : convert q = ⟨.ok, BitVec.ofNat 64 n⟩ := by
  have hinf (b : Bool) : q ≠ infinity b := by
    rintro rfl
    rw [isFinite_infinity] at hq
    cases hq
  have hn' : (n : ℚ) + 1 ≤ 2 ^ 64 := by exact_mod_cast hn
  have hnonneg : (0 : ℚ) ≤ n := Nat.cast_nonneg n
  have hfloor : ⌊toRat q⌋ = (n : ℤ) := Int.floor_eq_iff.2 ⟨by exact_mod_cast hle, by exact_mod_cast hlt⟩
  rw [convert_eq, if_neg (by rw [isNaN_of_isFinite hq]; decide), if_neg, if_neg, hfloor, Int.toNat_natCast]
  · rintro (h | ⟨-, h⟩)
    · exact hinf true h
    · linarith
  · rintro (h | ⟨-, h⟩)
    · exact hinf false h
    · linarith

end Sys2Proof.Machine
end

section
/-! ## Family 41_estimator: at most two registers that are not zero

O55, O57, O58. The sum is only bounded, since its additions round when a register is 40 or more: it lies between what 0
and what 1 in the places of the non-zero registers gives. The bounds of the quotient that follow decide its floor
(`41_estimator.md` rule R119). -/

namespace Sys2Proof.Machine

open F64

/-! ### Bounds of the sum -/

theorem F64.roundLow_lt_of_isFinite {n : Bool} {num den : Nat} (h : isFinite (roundRatio n num den) = true) :
    roundLow num den < 2047 * 2 ^ 52 := by
  by_contra hc
  rw [roundRatio, if_neg hc, isFinite_infinity] at h
  cases h

/-- Larger registers do not give a larger sum, rounding being monotone. -/
theorem magnitude_partialSum_anti {f g : Nat → RegValue} {k : Nat} (hk : k ≤ Config.numRegs)
    (h : ∀ i < k, (g i).toNat ≤ (f i).toNat) : magnitude (partialSum f k) ≤ magnitude (partialSum g k) := by
  induction k with
  | zero => exact Nat.le_refl _
  | succ k ih =>
    have hprev := ih (Nat.le_of_succ_le hk) fun i hi => h i (Nat.lt_succ_of_lt hi)
    obtain ⟨ff, sf, -, -⟩ := partialSum_bounds f (Nat.le_of_succ_le hk)
    obtain ⟨fg, sg, -, -⟩ := partialSum_bounds g (Nat.le_of_succ_le hk)
    obtain ⟨hf, -, -, -⟩ := partialSum_bounds f hk
    obtain ⟨hg, -, -, -⟩ := partialSum_bounds g hk
    have hterm : (2 : Nat) ^ (1074 - (f k).toNat) ≤ 2 ^ (1074 - (g k).toNat) :=
      Nat.pow_le_pow_right two_pos (Nat.sub_le_sub_left (h k k.lt_succ_self) 1074)
    rw [partialSum, fadd_nonneg ff (isFinite_pow2neg _) sf (sign_pow2neg _), magnitude_pow2neg] at hf ⊢
    rw [partialSum, fadd_nonneg fg (isFinite_pow2neg _) sg (sign_pow2neg _), magnitude_pow2neg] at hg ⊢
    rw [magnitude_roundRatio (roundLow_lt_of_isFinite hf), magnitude_roundRatio (roundLow_lt_of_isFinite hg)]
    refine lowUnits_strictMono.monotone (roundLow_mono Nat.one_pos Nat.one_pos ?_)
    exact Nat.mul_le_mul_right 1 (Nat.add_le_add hprev hterm)

/-- 1 in the place of every register that is not 0. -/
def flattened (f : Nat → RegValue) (i : Nat) : RegValue := if f i = 0 then 0 else 1

theorem toNat_flattened_le (f : Nat → RegValue) (i : Nat) : (flattened f i).toNat ≤ (f i).toNat := by
  unfold flattened
  split
  case isTrue => exact Nat.zero_le _
  case isFalse h => exact Nat.pos_of_ne_zero fun h0 => h (BitVec.eq_of_toNat_eq h0)

/-- Registers of 0 and 1 add up in halves: two for a 0, one for a 1. -/
theorem exactSum_flattened (f : Nat → RegValue) (k : Nat) : exactSum 1 (flattened f) k = k + zerosBelow f k := by
  induction k with
  | zero => rfl
  | succ k ih =>
    rw [exactSum, ih, zerosBelow, flattened]
    split
    · change _ + 2 = _; omega
    · change _ + 1 = _; omega

theorem F64.toRat_le_of_magnitude_le {x y : F64} (hx : sign x = false) (hy : sign y = false)
    (h : magnitude x ≤ magnitude y) : toRat x ≤ toRat y := by
  rw [toRat_eq_signed, toRat_eq_signed, hx, hy, signed_false, signed_false]
  exact div_le_div_of_nonneg_right (Nat.cast_le.2 h) unit_pos.le

theorem isFinite_harmonicSum (f : Nat → RegValue) : isFinite (harmonicSum f) = true := by
  obtain ⟨hfinite, -, -, -⟩ := partialSum_bounds f (Nat.le_refl Config.numRegs)
  exact hfinite

theorem sign_harmonicSum (f : Nat → RegValue) : sign (harmonicSum f) = false := by
  obtain ⟨-, hsign, -, -⟩ := partialSum_bounds f (Nat.le_refl Config.numRegs)
  exact hsign

theorem zeroCount_le_toRat_harmonicSum (f : Nat → RegValue) : (zeroCount f : ℚ) ≤ toRat (harmonicSum f) := by
  have hle : zeroCount f ≤ 2 ^ 53 := (zeroCount_le f).trans (by decide)
  obtain ⟨-, -, hlow, -⟩ := partialSum_bounds f (Nat.le_refl Config.numRegs)
  rw [← toRat_u2f hle]
  exact toRat_le_of_magnitude_le (sign_u2f hle) (sign_harmonicSum f) ((magnitude_u2f hle).trans_le hlow)

/-- The sum is at most the mean of the number of zero registers and the number of registers. -/
theorem toRat_harmonicSum_le (f : Nat → RegValue) :
    toRat (harmonicSum f) ≤ ((16384 + zeroCount f : Nat) : ℚ) / 2 := by
  have hsum : exactSum 1 (flattened f) Config.numRegs = 16384 + zeroCount f := exactSum_flattened f _
  have hle : exactSum 1 (flattened f) Config.numRegs ≤ 2 ^ 53 := by
    rw [hsum]
    exact (Nat.add_le_add_left (zeroCount_le f) _).trans (by decide)
  have hones : ∀ i < Config.numRegs, (flattened f i).toNat ≤ 1 := by
    intro i _
    unfold flattened
    split <;> decide
  have hexact : IsExactly 1 (16384 + zeroCount f) (harmonicSum (flattened f)) := by
    rw [← hsum]
    exact partialSum_exact (by decide) hones hle
  calc toRat (harmonicSum f) ≤ toRat (harmonicSum (flattened f)) :=
        toRat_le_of_magnitude_le (sign_harmonicSum f) (sign_harmonicSum _)
          (magnitude_partialSum_anti (Nat.le_refl _) fun i _ => toNat_flattened_le f i)
    _ = ((16384 + zeroCount f : Nat) : ℚ) / 2 := by rw [hexact.toRat_eq (by decide), pow_one]

/-! ### The quotient -/

/-- `beta` at the last three zero counts, for either neighbour of the logarithm. -/
theorem beta_near_full {k : Nat} (hk : k ≤ 2) :
    isFinite (beta ln64 (16384 - k)) = true ∧ 11819 - ((16384 - k : Nat) : ℚ) ≤ toRat (beta ln64 (16384 - k)) ∧
      toRat (beta ln64 (16384 - k)) ≤ 11821 - ((16384 + (16384 - k) : Nat) : ℚ) / 2 := by
  rw [beta_eq ln64 (Nat.sub_le _ _)]
  have hcases := ln64_cases (n := 16384 - k + 1) (by omega) (by omega)
  obtain rfl | rfl | rfl : k = 0 ∨ k = 1 ∨ k = 2 := by omega
  all_goals
    obtain h | h := hcases
    all_goals
      rw [h]
      decide +kernel

/-- The numerator at the last three zero counts, against the least and the greatest denominator. -/
theorem numerator_near_full : ∀ k ≤ 2, isFinite (numerator (16384 - k)) = true ∧
    toRat (u2f (k - 1)) * 11821 ≤ toRat (numerator (16384 - k)) ∧
      toRat (numerator (16384 - k)) ≤ toRat (u2f (k - 1 + 1) - 1) * 11819 := by
  decide +kernel

/-- With `k ≤ 2` registers that are not zero the quotient lies between `k - 1` and the pattern below the next natural. -/
theorem quotient_near_full {f : Nat → RegValue} {k : Nat} (hk : k ≤ 2) (hz : zeroCount f = 16384 - k) :
    let q := quotient ln64 (zeroCount f) (harmonicSum f)
    isFinite q = true ∧ toRat (u2f (k - 1)) ≤ toRat q ∧ toRat q ≤ toRat (u2f (k - 1 + 1) - 1) := by
  obtain ⟨hbeta, hbetaLow, hbetaHigh⟩ := beta_near_full hk
  obtain ⟨hnum, hnumLow, hnumHigh⟩ := numerator_near_full k hk
  have hround : Rounded (toRat (beta ln64 (16384 - k)) + toRat (harmonicSum f))
      (denominator ln64 (16384 - k) (harmonicSum f)) := rounded_fadd hbeta (isFinite_harmonicSum f)
  have hsumLow := zeroCount_le_toRat_harmonicSum f
  have hsumHigh := toRat_harmonicSum_le f
  rw [hz] at hsumLow hsumHigh
  have hlow : toRat (u2f 11819) = 11819 := toRat_u2f (by decide)
  have hhigh : toRat (u2f 11821) = 11821 := toRat_u2f (by decide)
  obtain ⟨hden, hdenLow, hdenHigh⟩ := hround.between (lo := u2f 11819) (hi := u2f 11821) (isFinite_u2f (by decide))
    (isFinite_u2f (by decide)) (by linarith) (by linarith)
  rw [hlow] at hdenLow
  rw [hhigh] at hdenHigh
  have hends : 0 ≤ toRat (u2f (k - 1)) ∧ isFinite (u2f (k - 1 + 1) - 1) = true ∧ 0 ≤ toRat (u2f (k - 1 + 1) - 1) := by
    obtain rfl | rfl | rfl : k = 0 ∨ k = 1 ∨ k = 2 := by omega
    all_goals decide +kernel
  obtain ⟨hlo, hhiFinite, hhi⟩ := hends
  dsimp only
  rw [hz]
  refine fdiv_between hnum hden (by linarith) (isFinite_u2f (by omega)) hhiFinite ?_ ?_
  · exact (mul_le_mul_of_nonneg_left hdenHigh hlo).trans hnumLow
  · exact hnumHigh.trans (mul_le_mul_of_nonneg_left hdenLow hhi)

theorem estimateWith_near_full {f : Nat → RegValue} {k : Nat} (hk : k ≤ 2) (hz : zeroCount f = 16384 - k) :
    estimateWith ln64 f = ⟨.ok, BitVec.ofNat 64 (k - 1)⟩ := by
  obtain ⟨hfinite, hlow, hhigh⟩ := quotient_near_full hk hz
  have hbelow : ∀ k ≤ 2, toRat (u2f (k - 1 + 1) - 1) < ((k - 1 : Nat) : ℚ) + 1 := by decide +kernel
  rw [toRat_u2f (by omega)] at hlow
  exact convert_of_floor hfinite hlow (hhigh.trans_lt (hbelow k hk)) (by omega)

/-! ### Counting zero registers by naming the others -/

theorem zerosBelow_add_card (f : Nat → RegValue) (k : Nat) :
    zerosBelow f k + ((Finset.range k).filter fun a => f a ≠ 0).card = k := by
  have hcard := Finset.card_filter_add_card_filter_not (s := Finset.range k) (fun a => f a = 0)
  rw [Finset.card_range] at hcard
  rwa [zerosBelow_eq_length_filter]

/-- When the registers that are not 0 are those at the indices in `S`, and at most two, the estimate is one less than
their number. -/
theorem estimate_of_nonzero_indices {s : State} (S : Finset Index) (hS : ∀ i : Index, s.reg i ≠ 0 ↔ i ∈ S)
    (hcard : S.card ≤ 2) : estimate s.regs = ⟨.ok, BitVec.ofNat 64 (S.card - 1)⟩ := by
  have hfilter : ((Finset.range Config.numRegs).filter fun a => s.regs.read a ≠ 0) = S.image BitVec.toNat := by
    ext a
    rw [Finset.mem_filter, Finset.mem_range, Finset.mem_image]
    constructor
    · rintro ⟨ha, hne⟩
      have hindex : (BitVec.ofNat 14 a).toNat = a := toNat_ofNat_of_lt ha
      refine ⟨BitVec.ofNat 14 a, (hS _).1 ?_, hindex⟩
      rwa [State.reg, hindex]
    · rintro ⟨i, hi, rfl⟩
      exact ⟨i.isLt, (hS i).2 hi⟩
  have hcount := zerosBelow_add_card s.regs.read Config.numRegs
  rw [hfilter, Finset.card_image_of_injective S fun _ _ => BitVec.eq_of_toNat_eq] at hcount
  exact estimateWith_near_full hcard (Nat.eq_sub_of_add_eq hcount)

end Sys2Proof.Machine

open Sys2Proof Sys2Proof.Machine

/-- Settles O55: no register is not 0. -/
theorem emptySketchEstimatesZero : Obligations.EmptySketchEstimatesZero := by
  intro s h
  have hnone : ∀ k : Index, s.reg k ≠ 0 ↔ k ∈ (∅ : Finset Index) := fun k =>
    iff_of_false (not_not_intro (h k)) (Finset.notMem_empty k)
  rw [exec_estimate, estimate_of_nonzero_indices ∅ hnone (by decide)]
  rfl

/-- Settles O57: the one register that is not 0 puts the quotient between 0 and 1. -/
theorem oneNonzeroRegisterEstimatesZero : Obligations.OneNonzeroRegisterEstimatesZero := by
  intro s i hi hothers
  have hone : ∀ k : Index, s.reg k ≠ 0 ↔ k ∈ ({i} : Finset Index) := by
    intro k
    rw [Finset.mem_singleton]
    exact ⟨fun hk => by_contra fun hne => hk (hothers k hne), fun hk => hk ▸ hi⟩
  rw [exec_estimate, estimate_of_nonzero_indices {i} hone (by simp), Finset.card_singleton]
  rfl

/-- Settles O58: the two registers that are not 0 put the quotient between 1 and 2. -/
theorem twoNonzeroRegistersEstimateOne : Obligations.TwoNonzeroRegistersEstimateOne := by
  intro s i j hij hi hj hothers
  have htwo : ∀ k : Index, s.reg k ≠ 0 ↔ k ∈ ({i, j} : Finset Index) := by
    intro k
    rw [Finset.mem_insert, Finset.mem_singleton]
    constructor
    · intro hk
      by_contra hne
      exact hk (hothers k (fun h => hne (.inl h)) fun h => hne (.inr h))
    · rintro (rfl | rfl)
      exacts [hi, hj]
  rw [exec_estimate, estimate_of_nonzero_indices {i, j} htwo (Finset.card_pair hij).le, Finset.card_pair hij]
  rfl

end

section
/-! ## Family 41_estimator: no rounding boundary near a logarithm

Which binary64 values surround `ln n` is decided by where `2^128 * ln n` lies in the grid of multiples of `2^74`: at 2 to
16385 every binary64 near `ln n`, and every midpoint of two, is one of them. That `lnFixed n` lies in the same cell as the
real number is evaluated, up to 128 on `lnFixed n` itself, and above on a running value that needs five terms of the series
for the step from `ln n` to `ln (n + 1)` (`41_estimator.md` rule R107). -/

namespace Sys2Proof.Machine.Log

open Real

/-! ### The step from one logarithm to the next -/

/-- What the series still adds after its first `k` terms. -/
theorem atanh_tail_le {z r : ℝ} (h0 : 0 ≤ z) (hz : z ≤ r) (hr : r < 1) (k : ℕ) :
    (log (1 + z) - log (1 - z)) / 2 - ∑ j ∈ Finset.range k, atanhTerm z j ≤ r ^ (2 * k + 1) * (1 - r ^ 2)⁻¹ := by
  have htail := (hasSum_nat_add_iff' k).2 (hasSum_atanhTerm h0 (hz.trans_lt hr))
  have hr0 : 0 ≤ r := h0.trans hz
  have hgeometric := (hasSum_geometric_of_lt_one (sq_nonneg r) (by nlinarith)).mul_left (r ^ (2 * k + 1))
  refine hasSum_le (fun j => ?_) htail hgeometric
  calc atanhTerm z (j + k) ≤ z ^ (2 * (j + k) + 1) := by
        refine div_le_self (by positivity) ?_
        have : (0 : ℝ) ≤ (j + k : ℕ) := Nat.cast_nonneg _
        linarith
    _ ≤ r ^ (2 * (j + k) + 1) := pow_le_pow_left₀ h0 hz _
    _ = r ^ (2 * k + 1) * (r ^ 2) ^ j := by ring

theorem log_succ_sub_log {n : ℕ} (hn : 0 < n) :
    log ((n + 1 : ℕ) : ℝ) - log n =
      log (1 + (1 : ℕ) / ((2 * n + 1 : ℕ) : ℝ)) - log (1 - (1 : ℕ) / ((2 * n + 1 : ℕ) : ℝ)) := by
  have h0 : (0 : ℝ) < n := Nat.cast_pos.2 hn
  have hplus : (1 : ℝ) + (1 : ℕ) / ((2 * n + 1 : ℕ) : ℝ) = 2 * (n + 1) / (2 * n + 1) := by push_cast; field_simp; ring
  have hminus : (1 : ℝ) - (1 : ℕ) / ((2 * n + 1 : ℕ) : ℝ) = 2 * n / (2 * n + 1) := by push_cast; field_simp; ring
  rw [hplus, hminus, ← log_div (by positivity) (by positivity), ← log_div (by positivity) (by positivity)]
  congr 1
  push_cast
  field_simp

/-- `2^128 * (ln (n + 1) - ln n)` from below. -/
def lnStep (n : Nat) : Nat := 2 * atanhFixed 1 (2 * n + 1) 5

theorem lnStep_bounds {n : ℕ} (hn : 128 ≤ n) :
    (lnStep n : ℝ) ≤ 2 ^ fractionBits * (log ((n + 1 : ℕ) : ℝ) - log n) ∧
      2 ^ fractionBits * (log ((n + 1 : ℕ) : ℝ) - log n) ≤ lnStep n + 2 ^ 42 := by
  have hn' : (128 : ℝ) ≤ n := by exact_mod_cast hn
  have hz0 : (0 : ℝ) ≤ (1 : ℕ) / ((2 * n + 1 : ℕ) : ℝ) := by positivity
  have hz : ((1 : ℕ) : ℝ) / ((2 * n + 1 : ℕ) : ℝ) ≤ 1 / 257 := by
    push_cast
    exact one_div_le_one_div_of_le (by norm_num) (by linarith)
  obtain ⟨hfixedLow, hfixedHigh⟩ := atanhFixed_partial 1 (show 0 < 2 * n + 1 by omega) 5
  have hseries := sum_le_hasSum (Finset.range 5) (fun j _ => atanhTerm_nonneg hz0 j)
    (hasSum_atanhTerm hz0 (by linarith))
  have htail := atanh_tail_le hz0 hz (by norm_num) 5
  have hsmall : (2 : ℝ) ^ fractionBits * ((1 / 257) ^ (2 * 5 + 1) * (1 - (1 / 257) ^ 2)⁻¹) + 5 ≤ 2 ^ 41 := by
    unfold fractionBits
    norm_num
  rw [log_succ_sub_log (by omega), lnStep, Nat.cast_mul, Nat.cast_ofNat]
  have hp : (0 : ℝ) < 2 ^ fractionBits := by positivity
  have hseries' := mul_le_mul_of_nonneg_left hseries hp.le
  have htail' := mul_le_mul_of_nonneg_left htail hp.le
  rw [mul_sub] at htail'
  have hfive : ((5 : ℕ) : ℝ) = 5 := by norm_num
  rw [hfive] at hfixedHigh
  constructor <;> linarith

/-! ### Cells of the grid -/

/-- `x` is `2^128 * ln n` from below, within `e`. -/
def Approximates (e n x : ℕ) : Prop := (x : ℝ) ≤ 2 ^ fractionBits * log n ∧ 2 ^ fractionBits * log n ≤ x + e

theorem Approximates.step {e n x : ℕ} (h : Approximates e n x) (hn : 128 ≤ n) :
    Approximates (e + 2 ^ 42) (n + 1) (x + lnStep n) := by
  obtain ⟨hlow, hhigh⟩ := h
  obtain ⟨hstepLow, hstepHigh⟩ := lnStep_bounds hn
  rw [mul_sub] at hstepLow hstepHigh
  rw [Approximates, Nat.cast_add, Nat.cast_add e, Nat.cast_pow, Nat.cast_ofNat]
  constructor <;> linarith

theorem approximates_lnFixed {n : ℕ} (h1 : 1 ≤ n) (h2 : n ≤ 16385) : Approximates (2 ^ 12) n (lnFixed n) := by
  obtain ⟨hlow, hhigh⟩ := lnFixed_bounds h1 h2
  exact ⟨hlow, hhigh.le.trans_eq (by norm_num)⟩

/-- `lnFixed n` and `2^128 * ln n` lie in one cell of the grid of multiples of `2^74`, the real number inside. -/
def InOneCell (n : ℕ) : Prop :=
  ((lnFixed n / 2 ^ 74 * 2 ^ 74 : ℕ) : ℝ) < 2 ^ fractionBits * log n ∧
    2 ^ fractionBits * log n < (((lnFixed n / 2 ^ 74 + 1) * 2 ^ 74 : ℕ) : ℝ)

/-- No multiple of `2^74` lies within `2^12` below `x` or `2^57` above it. -/
def awayFromGrid (x : Nat) : Bool := decide (2 ^ 12 < x % 2 ^ 74) && decide (x % 2 ^ 74 + 2 ^ 57 < 2 ^ 74)

theorem inOneCell_of_awayFromGrid {e n x : ℕ} (h1 : 1 ≤ n) (h2 : n ≤ 16385) (hx : Approximates e n x) (he : e ≤ 2 ^ 57)
    (haway : awayFromGrid x = true) : InOneCell n := by
  rw [awayFromGrid, Bool.and_eq_true, decide_eq_true_eq, decide_eq_true_eq] at haway
  obtain ⟨hlow, hhigh⟩ := hx
  obtain ⟨hfixedLow, hfixedHigh⟩ := approximates_lnFixed h1 h2
  have hcell : lnFixed n / 2 ^ 74 = x / 2 ^ 74 := by
    have hbelow : x ≤ lnFixed n + 2 ^ 12 := by exact_mod_cast hlow.trans hfixedHigh
    have habove : lnFixed n ≤ x + e := by exact_mod_cast hfixedLow.trans hhigh
    omega
  rw [InOneCell, hcell]
  constructor
  · refine lt_of_lt_of_le ?_ hlow
    exact_mod_cast (show x / 2 ^ 74 * 2 ^ 74 < x by omega)
  · refine hhigh.trans_lt ?_
    exact_mod_cast (show x + e < (x / 2 ^ 74 + 1) * 2 ^ 74 by omega)

/-- Walks from `n` over `2^k` steps, `x` the running value, and stops with none at a value near the grid. -/
def lnWalk : Nat → Nat → Nat → Option Nat
  | 0, n, x => if awayFromGrid x then some (x + lnStep n) else none
  | k + 1, n, x =>
    match lnWalk k n x with
    | some y => lnWalk k (n + 2 ^ k) y
    | none => none

theorem lnWalk_spec {k e n x y : ℕ} (hwalk : lnWalk k n x = some y) (hn : 128 ≤ n) (hx : Approximates e n x)
    (he : e + 2 ^ k * 2 ^ 42 ≤ 2 ^ 57) :
    (∀ m, n ≤ m → m < n + 2 ^ k → m ≤ 16385 → InOneCell m) ∧ Approximates (e + 2 ^ k * 2 ^ 42) (n + 2 ^ k) y := by
  induction k generalizing e n x y with
  | zero =>
    rw [lnWalk] at hwalk
    split at hwalk
    case isTrue haway =>
      obtain rfl := Option.some.inj hwalk
      rw [pow_zero, one_mul] at he ⊢
      refine ⟨fun m h1 h2 h3 => ?_, hx.step hn⟩
      obtain rfl : m = n := by omega
      exact inOneCell_of_awayFromGrid (by omega) h3 hx (by omega) haway
    case isFalse => cases hwalk
  | succ k ih =>
    rw [lnWalk] at hwalk
    split at hwalk
    case h_1 z hz =>
      have hdouble : 2 ^ (k + 1) = 2 ^ k + 2 ^ k := by rw [pow_succ, mul_two]
      rw [hdouble, add_mul, ← add_assoc] at he
      obtain ⟨hfirst, hmiddle⟩ := ih hz hn hx (by omega)
      obtain ⟨hsecond, hlast⟩ := ih hwalk (by omega) hmiddle he
      rw [hdouble, add_mul, ← add_assoc, ← add_assoc]
      refine ⟨fun m h1 h2 h3 => ?_, hlast⟩
      rcases Nat.lt_or_ge m (n + 2 ^ k) with h | h
      · exact hfirst m h1 h h3
      · exact hsecond m h (by omega) h3
    case h_2 => cases hwalk

theorem lnFixed_awayFromGrid : ∀ n < 126, awayFromGrid (lnFixed (n + 2)) = true := by decide +kernel

theorem lnWalk_isSome : (lnWalk 14 128 (lnFixed 128)).isSome = true := by decide +kernel

/-- Up to 128 evaluated one by one, from there by the walk. -/
theorem inOneCell {n : ℕ} (h1 : 2 ≤ n) (h2 : n ≤ 16385) : InOneCell n := by
  rcases Nat.lt_or_ge n 128 with h | h
  · obtain ⟨m, rfl⟩ := Nat.exists_eq_add_of_le' h1
    exact inOneCell_of_awayFromGrid (by omega) h2 (approximates_lnFixed (by omega) h2) (by decide)
      (lnFixed_awayFromGrid m (by omega))
  · obtain ⟨y, hy⟩ := Option.isSome_iff_exists.1 lnWalk_isSome
    exact (lnWalk_spec hy (Nat.le_refl _) (approximates_lnFixed (by decide) (by decide)) (by decide)).1 n h (by omega) h2

end Sys2Proof.Machine.Log
end

section
/-! ## Family 41_estimator: the logarithm against the real logarithm

O50, O51. `lnDown n` and `lnUp n` are the patterns of the two multiples of `2^lnShift` around `lnFixed n`, and `InOneCell`
says on which side of them, and of their midpoint, the real logarithm lies (`41_estimator.md` rule R107). -/

namespace Sys2Proof.Machine

open F64

/-! ### Neighbouring patterns of sign `+` -/

theorem F64.toRat_ofSignMag {l : Nat} (hl : l < 2 ^ 63) : toRat (ofSignMag false l) = (lowUnits l : ℚ) / 2 ^ 1074 := by
  rw [toRat_eq_signed, sign_ofSignMag hl, signed_false, magnitude_eq, low_ofSignMag hl]

theorem F64.isFinite_ofSignMag {l : Nat} (hl : l < 2047 * 2 ^ 52) : isFinite (ofSignMag false l) = true := by
  rw [isFinite_iff, low_ofSignMag (by omega)]
  exact hl

theorem F64.toRat_le_or_ge (y : F64) {l : Nat} (hl : l + 1 < 2 ^ 63) :
    toRat y ≤ toRat (ofSignMag false l) ∨ toRat (ofSignMag false (l + 1)) ≤ toRat y := by
  rw [toRat_ofSignMag hl, toRat_ofSignMag (Nat.lt_of_succ_lt hl), toRat, div_le_div_iff_of_pos_right unit_pos,
    div_le_div_iff_of_pos_right unit_pos]
  exact_mod_cast units_le_or_ge y l

/-- Of two neighbours the one on the number's side of the midpoint is nearest. -/
theorem abs_sub_le_of_neighbours {lo hi r z : ℝ} (hlo : lo ≤ r) (hhi : r ≤ hi) (hz : z ≤ lo ∨ hi ≤ z) :
    (lo + hi ≤ 2 * r → |hi - r| ≤ |z - r|) ∧ (2 * r ≤ lo + hi → |lo - r| ≤ |z - r|) := by
  rw [abs_of_nonneg (sub_nonneg.2 hhi), abs_of_nonpos (sub_nonpos.2 hlo)]
  rcases hz with h | h
  · rw [abs_of_nonpos (by linarith : z - r ≤ 0)]
    constructor <;> intro <;> linarith
  · rw [abs_of_nonneg (by linarith : 0 ≤ z - r)]
    constructor <;> intro <;> linarith

namespace Log

open Real

/-- In a coarser grid of multiples of a power of 2 too, the real number lies inside `lnFixed n`'s cell. -/
theorem InOneCell.coarser {n s : ℕ} (h : InOneCell n) (hs : 74 ≤ s) :
    ((lnFixed n / 2 ^ s * 2 ^ s : ℕ) : ℝ) < 2 ^ fractionBits * log n ∧
      2 ^ fractionBits * log n < (((lnFixed n / 2 ^ s + 1) * 2 ^ s : ℕ) : ℝ) := by
  obtain ⟨d, rfl⟩ := Nat.exists_eq_add_of_le hs
  obtain ⟨hlow, hhigh⟩ := h
  rw [pow_add, ← Nat.div_div_eq_div_mul]
  generalize lnFixed n / 2 ^ 74 = c at *
  have hdown : c / 2 ^ d * 2 ^ d ≤ c := Nat.div_mul_le_self c _
  have hup : c + 1 ≤ (c / 2 ^ d + 1) * 2 ^ d := by
    rw [Nat.add_mul, one_mul]
    exact Nat.lt_div_mul_add (Nat.two_pow_pos d)
  constructor
  · refine lt_of_le_of_lt (Nat.cast_le.2 ?_) hlow
    calc c / 2 ^ d * (2 ^ 74 * 2 ^ d) = c / 2 ^ d * 2 ^ d * 2 ^ 74 := by ring
      _ ≤ c * 2 ^ 74 := Nat.mul_le_mul_right _ hdown
  · refine lt_of_lt_of_le hhigh (Nat.cast_le.2 ?_)
    calc (c + 1) * 2 ^ 74 ≤ (c / 2 ^ d + 1) * 2 ^ d * 2 ^ 74 := Nat.mul_le_mul_right _ hup
      _ = (c / 2 ^ d + 1) * (2 ^ 74 * 2 ^ d) := by ring

/-- The remainder says in which half of a cell a number lies. -/
theorem div_two_pow_half (x t : ℕ) :
    (2 ^ (t + 1) ≤ 2 * (x % 2 ^ (t + 1)) → x / 2 ^ t = 2 * (x / 2 ^ (t + 1)) + 1) ∧
      (2 * (x % 2 ^ (t + 1)) < 2 ^ (t + 1) → x / 2 ^ t = 2 * (x / 2 ^ (t + 1))) := by
  have hr := Nat.mod_lt x (Nat.two_pow_pos t)
  rw [pow_succ, ← Nat.div_div_eq_div_mul, Nat.mod_mul]
  rcases Nat.mod_two_eq_zero_or_one (x / 2 ^ t) with h | h <;> rw [h] <;> constructor <;> omega

/-- The 53 bits of the significand of `lnDown n`. -/
def lnSignificand (n : Nat) : Nat := lnFixed n / 2 ^ lnShift n

/-- The lower 63 bits of `lnDown n`. -/
def lnLow (n : Nat) : Nat := (lnShift n + 1074 - fractionBits) * 2 ^ 52 + lnSignificand n

theorem lnDown_eq (n : Nat) : lnDown n = ofSignMag false (lnLow n) := by
  rw [ofSignMag, if_neg Bool.false_ne_true, Nat.zero_add]
  rfl

theorem lnUp_eq (n : Nat) : lnUp n = ofSignMag false (lnLow n + 1) := by
  rw [lnUp, lnDown_eq, ofSignMag, ofSignMag, if_neg Bool.false_ne_true, Nat.zero_add, Nat.zero_add, BitVec.ofNat_add]
  rfl

/-- A significand at `lnShift n` in units of `2^-1074`, as a number. -/
theorem lowUnits_div_unit (n : ℕ) {m : ℕ} (hm1 : 2 ^ 52 ≤ m) (hm2 : m ≤ 2 ^ 53) :
    (lowUnits ((lnShift n + 1074 - fractionBits) * 2 ^ 52 + m) : ℚ) / 2 ^ 1074 =
      ((m * 2 ^ lnShift n : ℕ) : ℚ) / 2 ^ fractionBits := by
  have hexp : lnShift n + 1074 - fractionBits = lnShift n + 946 := by unfold fractionBits; omega
  have hunit : (2 : ℚ) ^ 1074 = 2 ^ 946 * 2 ^ fractionBits := (pow_add 2 946 128)
  rw [hexp, lowUnits_of_normal hm1 hm2, hunit, pow_add, ← mul_assoc, Nat.cast_mul, Nat.cast_pow 2 946, Nat.cast_ofNat,
    mul_comm _ ((2 : ℚ) ^ 946)]
  exact mul_div_mul_left _ _ (pow_ne_zero _ two_ne_zero)

section
variable {n : ℕ} (h1 : 2 ≤ n) (h2 : n ≤ 16385)
include h1 h2

theorem lnFixed_range : 2 ^ 127 ≤ lnFixed n ∧ lnFixed n < 2 ^ 144 := by
  have hn : (2 : ℝ) ≤ n := by exact_mod_cast h1
  have hn' : (n : ℝ) ≤ 16385 := by exact_mod_cast h2
  obtain ⟨hlow, hhigh⟩ := lnFixed_bounds (one_le_two.trans h1) h2
  have hlog2 : log 2 ≤ log n := log_le_log two_pos hn
  have hlogn : log n ≤ n := log_le_self (by linarith)
  have htwo := log_two_gt_d9
  have hp : (2 : ℝ) ^ fractionBits = 2 ^ 128 := rfl
  rw [hp] at hlow hhigh
  have hlow' : (2 : ℝ) ^ 127 ≤ lnFixed n := by linarith
  have hhigh' : (lnFixed n : ℝ) < 2 ^ 144 := by linarith
  exact ⟨by exact_mod_cast hlow', by exact_mod_cast hhigh'⟩

theorem lnShift_range : 75 ≤ lnShift n ∧ lnShift n ≤ 91 ∧ 2 ^ 52 ≤ lnSignificand n ∧ lnSignificand n < 2 ^ 53 := by
  obtain ⟨hlow, hhigh⟩ := lnFixed_range h1 h2
  have hne : lnFixed n ≠ 0 := by omega
  have hlogLow : 127 ≤ Nat.log2 (lnFixed n) := (Nat.le_log2 hne).2 hlow
  have hlogHigh : Nat.log2 (lnFixed n) < 144 := (Nat.log2_lt hne).2 hhigh
  have hshift : lnShift n + 52 = Nat.log2 (lnFixed n) := by rw [lnShift, floorLog2_eq]; omega
  refine ⟨by omega, by omega, ?_, ?_⟩
  · rw [lnSignificand, Nat.le_div_iff_mul_le (Nat.two_pow_pos _), ← pow_add, Nat.add_comm, hshift]
    exact Nat.log2_self_le hne
  · rw [lnSignificand, Nat.div_lt_iff_lt_mul (Nat.two_pow_pos _), ← pow_add,
      show 53 + lnShift n = Nat.log2 (lnFixed n) + 1 by omega]
    exact Nat.lt_log2_self

theorem lnLow_lt : lnLow n + 1 < 2047 * 2 ^ 52 := by
  obtain ⟨-, hs, -, hd⟩ := lnShift_range h1 h2
  unfold lnLow fractionBits
  omega

theorem toRat_lnDown : toRat (lnDown n) = ((lnSignificand n * 2 ^ lnShift n : ℕ) : ℚ) / 2 ^ fractionBits := by
  obtain ⟨-, -, hd1, hd2⟩ := lnShift_range h1 h2
  have hl := lnLow_lt h1 h2
  rw [lnDown_eq, toRat_ofSignMag (by omega), lnLow, lowUnits_div_unit n hd1 hd2.le]

theorem toRat_lnUp : toRat (lnUp n) = (((lnSignificand n + 1) * 2 ^ lnShift n : ℕ) : ℚ) / 2 ^ fractionBits := by
  obtain ⟨-, -, hd1, hd2⟩ := lnShift_range h1 h2
  have hl := lnLow_lt h1 h2
  rw [lnUp_eq, toRat_ofSignMag (by omega), lnLow, Nat.add_assoc, lowUnits_div_unit n (Nat.le_succ_of_le hd1) hd2]

theorem isFinite_lnDown : isFinite (lnDown n) = true := by
  rw [lnDown_eq]
  exact isFinite_ofSignMag (Nat.lt_of_succ_lt (lnLow_lt h1 h2))

theorem isFinite_lnUp : isFinite (lnUp n) = true := by
  rw [lnUp_eq]
  exact isFinite_ofSignMag (lnLow_lt h1 h2)

theorem toRat_le_lnDown_or_ge_lnUp (y : F64) : toRat y ≤ toRat (lnDown n) ∨ toRat (lnUp n) ≤ toRat y := by
  have hl := lnLow_lt h1 h2
  rw [lnDown_eq, lnUp_eq]
  exact toRat_le_or_ge y (by omega)

theorem lnDown_lt_log : (toRat (lnDown n) : ℝ) < log n := by
  obtain ⟨hs, -⟩ := lnShift_range h1 h2
  have h := ((inOneCell h1 h2).coarser (s := lnShift n) (by omega)).1
  rw [toRat_lnDown h1 h2]
  push_cast at h ⊢
  rwa [div_lt_iff₀' (by positivity)]

theorem log_lt_lnUp : log n < (toRat (lnUp n) : ℝ) := by
  obtain ⟨hs, -⟩ := lnShift_range h1 h2
  have h := ((inOneCell h1 h2).coarser (s := lnShift n) (by omega)).2
  rw [toRat_lnUp h1 h2]
  push_cast at h ⊢
  rwa [lt_div_iff₀' (by positivity)]

/-- The neighbours' midpoint is a multiple of `2^(lnShift - 1)`, and the remainder of `lnFixed n` says on which side of
it the real number lies. -/
theorem midpoint_side :
    (2 ^ lnShift n ≤ 2 * (lnFixed n % 2 ^ lnShift n) →
      (toRat (lnDown n) : ℝ) + (toRat (lnUp n) : ℝ) ≤ 2 * log n) ∧
    (2 * (lnFixed n % 2 ^ lnShift n) < 2 ^ lnShift n →
      2 * log n ≤ (toRat (lnDown n) : ℝ) + (toRat (lnUp n) : ℝ)) := by
  obtain ⟨hs, -⟩ := lnShift_range h1 h2
  obtain ⟨t, ht⟩ := Nat.exists_eq_add_of_le' (show 1 ≤ lnShift n by omega)
  obtain ⟨hlow, hhigh⟩ := (inOneCell h1 h2).coarser (s := t) (by omega)
  obtain ⟨hupper, hlower⟩ := div_two_pow_half (lnFixed n) t
  have hp : (0 : ℝ) < 2 ^ fractionBits := by positivity
  rw [toRat_lnDown h1 h2, toRat_lnUp h1 h2, lnSignificand, ht]
  push_cast
  rw [← add_div, div_le_iff₀ hp, le_div_iff₀ hp, pow_succ (2 : ℝ) t]
  generalize (2 : ℝ) ^ fractionBits = p at *
  constructor
  · intro hr
    rw [hupper hr] at hlow
    push_cast at hlow
    linarith
  · intro hr
    rw [hlower hr] at hhigh
    push_cast at hhigh
    linarith

/-- `lnNearest n` is nearest to the real logarithm among all numbers. -/
theorem abs_lnNearest_sub_log_le (y : F64) :
    |(toRat (lnNearest n) : ℝ) - log n| ≤ |(toRat y : ℝ) - log n| := by
  have hy : (toRat y : ℝ) ≤ (toRat (lnDown n) : ℝ) ∨ (toRat (lnUp n) : ℝ) ≤ (toRat y : ℝ) := by
    exact_mod_cast toRat_le_lnDown_or_ge_lnUp h1 h2 y
  obtain ⟨hup, hdown⟩ := abs_sub_le_of_neighbours (lnDown_lt_log h1 h2).le (log_lt_lnUp h1 h2).le hy
  obtain ⟨habove, hbelow⟩ := midpoint_side h1 h2
  rw [lnNearest]
  split
  case isTrue h => exact hup (habove h)
  case isFalse h => exact hdown (hbelow (not_le.1 h))

theorem isFinite_lnNearest : isFinite (lnNearest n) = true := by
  rw [lnNearest]
  split
  · exact isFinite_lnUp h1 h2
  · exact isFinite_lnDown h1 h2

end

end Log

theorem ln64CR_of_argument {x : F64} {n : Nat} (hx : Log.argument x = some n) (hn : n ≠ 1) :
    ln64CR x = Log.lnNearest n := by
  unfold ln64CR
  split
  case h_1 h => exact absurd (Option.some.inj (hx.symm.trans h)) hn
  case h_2 m _ h =>
    obtain rfl : n = m := Option.some.inj (hx.symm.trans h)
    rfl
  case h_3 h => cases hx.symm.trans h

theorem ln64CR_of_argument_one {x : F64} (hx : Log.argument x = some 1) : ln64CR x = plusZero := by
  unfold ln64CR
  split
  case h_1 => rfl
  case h_2 m hm h => exact absurd (Option.some.inj (h.symm.trans hx)) hm
  case h_3 h => cases hx.symm.trans h

end Sys2Proof.Machine

open Sys2Proof Sys2Proof.Machine

/-- Settles O50: the two values of `LN64` at `n` are neighbours, and the real logarithm lies between them. -/
theorem logarithmIsExactAtOneAndFaithful : Obligations.LogarithmIsExactAtOneAndFaithful := by
  have hone : F64.one = F64.u2f 1 := by decide +kernel
  refine ⟨hone ▸ ln64_one, fun n h1 h2 => ⟨Log.lnDown n, Log.lnUp n, Log.isFinite_lnDown h1 h2, Log.isFinite_lnUp h1 h2,
    Log.lnDown_lt_log h1 h2, Log.log_lt_lnUp h1 h2, fun y _ => Log.toRat_le_lnDown_or_ge_lnUp h1 h2 y, ln64_cases h1 h2⟩⟩

/-- Settles O51: exact at 1, and from 2 up the neighbour on the real logarithm's side of the midpoint. -/
theorem defaultLogarithmIsCorrectlyRounded : Obligations.DefaultLogarithmIsCorrectlyRounded := by
  intro n h1 h2
  have harg := argument_u2f h1 h2
  by_cases hn : n = 1
  · subst hn
    have hzero : F64.toRat F64.plusZero = 0 := F64.toRat_eq_zero.2 magnitude_plusZero
    rw [ln64CR_of_argument_one harg, hzero, Nat.cast_one, Real.log_one, Rat.cast_zero, sub_zero, abs_zero]
    exact ⟨isFinite_plusZero, fun y _ => abs_nonneg _⟩
  · rw [ln64CR_of_argument harg hn]
    have h : 2 ≤ n := by omega
    exact ⟨Log.isFinite_lnNearest h h2, fun y _ => Log.abs_lnNearest_sub_log_le h h2 y⟩

end

section
/-! ## Family 41_estimator: rounding errors

The absolute error of a rounded result of at most `2^25`, and how it is carried through sums and products. -/

namespace Sys2Proof.Machine.F64

/-- A multiple of `2^-28` of at most `2^25` is a number. -/
theorem exists_toRat_eq_div {k : Nat} (hk : k ≤ 2 ^ 53) : ∃ x : F64, isFinite x = true ∧ toRat x = k / 2 ^ 28 := by
  obtain ⟨hno, hmag⟩ := magnitude_roundRatio_exact (neg := false) (e := 1074 - 28) hk (by decide) Nat.one_pos
  exact ⟨_, isFinite_roundRatio hno, IsExactly.toRat_eq (R := 28) (by decide)
    ⟨isFinite_roundRatio hno, sign_roundRatio hno, hmag⟩⟩

/-- Up to `2^25` one rounding is off by at most `2^-28`. -/
theorem Rounded.abs_sub_le {q : ℚ} {x : F64} (h : Rounded q x) (hq : |q| ≤ 2 ^ 25) :
    isFinite x = true ∧ |toRat x - q| ≤ 1 / 2 ^ 28 := by
  obtain ⟨hx, hnear⟩ := h.nearestEven (k := 25) (by decide) hq
  have hcell := Nat.floor_le (show 0 ≤ |q| * 2 ^ 28 by positivity)
  have hcell' := Nat.lt_floor_add_one (|q| * 2 ^ 28)
  have hk : ⌊|q| * 2 ^ 28⌋₊ ≤ 2 ^ 53 := by
    have : ((⌊|q| * 2 ^ 28⌋₊ : ℕ) : ℚ) ≤ (2 ^ 53 : ℕ) := by push_cast; linarith
    exact_mod_cast this
  obtain ⟨y, hy, hyval⟩ := exists_toRat_eq_div hk
  generalize ⌊|q| * 2 ^ 28⌋₊ = k at *
  have hdist : abs (toRat y - |q|) ≤ 1 / 2 ^ 28 := by
    rw [hyval, abs_le]
    constructor <;> linarith
  refine ⟨hx, ?_⟩
  rcases abs_cases q with ⟨e, -⟩ | ⟨e, -⟩ <;> rw [e] at hdist
  · exact (hnear y hy).1.trans hdist
  · refine (hnear (F64.neg y) ((isFinite_neg y).trans hy)).1.trans ?_
    rwa [toRat_neg, ← abs_neg, neg_sub, sub_neg_eq_add, add_comm, ← sub_neg_eq_add]

/-- `x` stands for `r` up to an error of `err`, and `r` is at most `size` in magnitude. -/
def Near (err size : ℚ) (x : F64) (r : ℚ) : Prop := isFinite x = true ∧ |toRat x - r| ≤ err ∧ |r| ≤ size

section
variable {e₁ e₂ s₁ s₂ : ℚ} {a b : F64} {r t : ℚ} (ha : Near e₁ s₁ a r) (hb : Near e₂ s₂ b t)
include ha hb

theorem Near.fadd (h : s₁ + s₂ + e₁ + e₂ ≤ 2 ^ 25) :
    Near (e₁ + e₂ + 1 / 2 ^ 28) (s₁ + s₂) (fadd a b) (r + t) := by
  obtain ⟨hfa, hea, hsa⟩ := ha
  obtain ⟨hfb, heb, hsb⟩ := hb
  rw [abs_le] at hea heb hsa hsb
  obtain ⟨hfinite, herr⟩ := (rounded_fadd hfa hfb).abs_sub_le (abs_le.2 ⟨by linarith, by linarith⟩)
  rw [abs_le] at herr
  exact ⟨hfinite, abs_le.2 ⟨by linarith, by linarith⟩, abs_le.2 ⟨by linarith, by linarith⟩⟩

theorem Near.fmul (h : (s₁ + e₁) * (s₂ + e₂) ≤ 2 ^ 25) :
    Near (s₁ * e₂ + e₁ * (s₂ + e₂) + 1 / 2 ^ 28) (s₁ * s₂) (fmul a b) (r * t) := by
  obtain ⟨hfa, hea, hsa⟩ := ha
  obtain ⟨hfb, heb, hsb⟩ := hb
  have hsize (x s e : ℚ) (y : F64) (h1 : |toRat y - x| ≤ e) (h2 : |x| ≤ s) : |toRat y| ≤ s + e := by
    rw [abs_le] at *
    constructor <;> linarith
  have hab := hsize r s₁ e₁ a hea hsa
  have hbb := hsize t s₂ e₂ b heb hsb
  have hexact : |toRat a * toRat b| ≤ 2 ^ 25 := by
    rw [abs_mul]
    exact (mul_le_mul hab hbb (abs_nonneg _) ((abs_nonneg _).trans hab)).trans h
  obtain ⟨hfinite, herr⟩ := (rounded_fmul hfa hfb).abs_sub_le hexact
  refine ⟨hfinite, ?_, ?_⟩
  · have hsplit : toRat (F64.fmul a b) - r * t =
        (toRat (F64.fmul a b) - toRat a * toRat b) + (r * (toRat b - t) + (toRat a - r) * toRat b) := by ring
    have h1 : |r * (toRat b - t)| ≤ s₁ * e₂ := by
      rw [abs_mul]
      exact mul_le_mul hsa heb (abs_nonneg _) ((abs_nonneg _).trans hsa)
    have h2 : |(toRat a - r) * toRat b| ≤ e₁ * (s₂ + e₂) := by
      rw [abs_mul]
      exact mul_le_mul hea hbb (abs_nonneg _) ((abs_nonneg _).trans hea)
    rw [hsplit]
    have h3 := abs_add_le (r * (toRat b - t)) ((toRat a - r) * toRat b)
    have h4 := abs_add_le (toRat (F64.fmul a b) - toRat a * toRat b) (r * (toRat b - t) + (toRat a - r) * toRat b)
    linarith
  · rw [abs_mul]
    exact mul_le_mul hsa hsb (abs_nonneg _) ((abs_nonneg _).trans hsa)

end

theorem Near.mono {e e' s s' : ℚ} {x : F64} {r : ℚ} (h : Near e s x r) (he : e ≤ e') (hs : s ≤ s') :
    Near e' s' x r := by
  obtain ⟨hfinite, herr, hsize⟩ := h
  exact ⟨hfinite, herr.trans he, hsize.trans hs⟩

theorem near_self {x : F64} (hx : isFinite x = true) {s : ℚ} (hs : |toRat x| ≤ s) : Near 0 s x (toRat x) :=
  ⟨hx, by rw [sub_self, abs_zero], hs⟩

end Sys2Proof.Machine.F64
end

section
/-! ## Family 41_estimator: the correction in real numbers

`beta(ez) + ez` is bounded from below for every `ez` at once: over the reals `ez + 1 = exp(ln(ez + 1))` is at least the
exponential's Taylor polynomial, which leaves a polynomial in the logarithm (`41_estimator.md` rules R110 b, R116). -/

namespace Sys2Proof.Machine

open F64

/-! ### The logarithm as a rational number -/

/-- `LN64` is within `2^-37` of the real logarithm from 2 to 16385. -/
theorem ln64_near_log {n : ℕ} (h1 : 2 ≤ n) (h2 : n ≤ 16385) :
    isFinite (ln64 (u2f n)) = true ∧ |(toRat (ln64 (u2f n)) : ℝ) - Real.log n| ≤ 1 / 2 ^ 37 := by
  have hlow := Log.lnDown_lt_log h1 h2
  have hhigh := Log.log_lt_lnUp h1 h2
  have hgap : (toRat (Log.lnUp n) : ℝ) - (toRat (Log.lnDown n) : ℝ) ≤ 1 / 2 ^ 37 := by
    obtain ⟨-, hs, -⟩ := Log.lnShift_range h1 h2
    have hpow : (2 : ℝ) ^ Log.lnShift n ≤ 2 ^ 91 := pow_le_pow_right₀ one_le_two hs
    rw [Log.toRat_lnDown h1 h2, Log.toRat_lnUp h1 h2]
    push_cast
    rw [← sub_div, add_mul, add_sub_cancel_left, one_mul]
    calc (2 : ℝ) ^ Log.lnShift n / 2 ^ Log.fractionBits ≤ 2 ^ 91 / 2 ^ Log.fractionBits :=
          div_le_div_of_nonneg_right hpow (by positivity)
      _ = 1 / 2 ^ 37 := by unfold Log.fractionBits; norm_num
  obtain h | h := ln64_cases h1 h2 <;> rw [h, abs_le]
  · exact ⟨Log.isFinite_lnDown h1 h2, by linarith, by linarith⟩
  · exact ⟨Log.isFinite_lnUp h1 h2, by linarith, by linarith⟩

/-- The exponential's Taylor polynomial of degree 7. -/
def taylorExp (z : ℚ) : ℚ :=
  1 + z + z ^ 2 / 2 + z ^ 3 / 6 + z ^ 4 / 24 + z ^ 5 / 120 + z ^ 6 / 720 + z ^ 7 / 5040

theorem taylorExp_le_exp {z : ℚ} (hz : 0 ≤ z) : (taylorExp z : ℝ) ≤ Real.exp z := by
  have h := Real.sum_le_exp_of_nonneg (x := (z : ℝ)) (by exact_mod_cast hz) 8
  refine le_trans (le_of_eq ?_) h
  simp only [taylorExp, Finset.sum_range_succ, Finset.sum_range_zero, Nat.factorial]
  push_cast
  ring

/-- What is used of the logarithm's value: its range, and that its exponential is about the argument. -/
theorem range_of_near_log {n : ℕ} {z : ℚ} (h1 : 2 ≤ n) (h2 : n ≤ 2 ^ 15)
    (hnear : |(z : ℝ) - Real.log n| ≤ 1 / 2 ^ 37) : 2 / 3 ≤ z ∧ z ≤ 11 ∧ taylorExp z ≤ n + 1 / 100 := by
  obtain ⟨hnearLow, hnearHigh⟩ := abs_le.1 hnear
  have hn1 : (2 : ℝ) ≤ n := by exact_mod_cast h1
  have hn2 : (n : ℝ) ≤ 2 ^ 15 := by exact_mod_cast h2
  have hn0 : (0 : ℝ) < n := by linarith
  have herr : (1 / 2 ^ 37 : ℝ) ≤ 1 / 1000 := by norm_num
  have hlogLow : Real.log 2 ≤ Real.log n := Real.log_le_log two_pos hn1
  have hlogHigh : Real.log n ≤ Real.log (2 ^ 15) := Real.log_le_log hn0 hn2
  rw [Real.log_pow, Nat.cast_ofNat] at hlogHigh
  have hln2Low := Real.log_two_gt_d9
  have hln2High := Real.log_two_lt_d9
  have hz : (0 : ℝ) ≤ z := by linarith
  have hexp : Real.exp z ≤ n * Real.exp (1 / 2 ^ 37) := by
    nth_rw 1 [← Real.exp_log hn0]
    rw [← Real.exp_add]
    exact Real.exp_le_exp.2 (by linarith)
  have hsmall : Real.exp (1 / 2 ^ 37) ≤ 1 + 1 / 2 ^ 36 := by
    have h := Real.abs_exp_sub_one_le (x := 1 / 2 ^ 37) (by norm_num)
    have h' := (abs_le.1 h).2
    rw [abs_of_nonneg (by positivity)] at h'
    linarith
  refine ⟨Rat.cast_le (K := ℝ).1 ?_, Rat.cast_le (K := ℝ).1 ?_, Rat.cast_le (K := ℝ).1 ?_⟩
  · push_cast
    linarith
  · push_cast
    linarith
  · push_cast
    calc (taylorExp z : ℝ) ≤ Real.exp z := taylorExp_le_exp (by exact_mod_cast hz)
      _ ≤ n * (1 + 1 / 2 ^ 36) := hexp.trans (mul_le_mul_of_nonneg_left hsmall hn0.le)
      _ ≤ n + 1 / 100 := by linarith

/-! ### The correction -/

/-- `beta` as a polynomial in the rational values of its coefficients, its argument and the logarithm (R100). -/
def exactBeta (e z : ℚ) : ℚ :=
  toRat C1 * e + toRat C2 * z + toRat C3 * z ^ 2 + toRat C4 * z ^ 3 + toRat C5 * z ^ 4 + toRat C6 * z ^ 5 +
    toRat C7 * z ^ 6 + toRat C8 * z ^ 7

/-- Lower bounds of the coefficients. -/
theorem coefficients_ge : -3704 / 10000 ≤ toRat C1 ∧ 7 / 100 ≤ toRat C2 ∧ 1739 / 10000 ≤ toRat C3 ∧
    1633 / 10000 ≤ toRat C4 ∧ -924 / 10000 ≤ toRat C5 ∧ 373 / 10000 ≤ toRat C6 ∧ -54 / 10000 ≤ toRat C7 ∧
    4 / 10000 ≤ toRat C8 := by
  decide +kernel

theorem near_coefficients : Near 0 1 C1 (toRat C1) ∧ Near 0 1 C2 (toRat C2) ∧ Near 0 1 C3 (toRat C3) ∧
    Near 0 1 C4 (toRat C4) ∧ Near 0 1 C5 (toRat C5) ∧ Near 0 1 C6 (toRat C6) ∧ Near 0 1 C7 (toRat C7) ∧
    Near 0 1 C8 (toRat C8) := by
  refine ⟨?_, ?_, ?_, ?_, ?_, ?_, ?_, ?_⟩
  all_goals exact near_self (by decide +kernel) (by decide +kernel)

/-- The polynomial that is left when `e` is bounded by the Taylor polynomial. -/
theorem correction_polynomial_ge {z : ℚ} (hz : 2 / 3 ≤ z) :
    65 / 100 ≤ 6296 / 10000 * (taylorExp z - 1) + 7 / 100 * z + 1739 / 10000 * z ^ 2 + 1633 / 10000 * z ^ 3 -
      924 / 10000 * z ^ 4 + 373 / 10000 * z ^ 5 - 54 / 10000 * z ^ 6 + 4 / 10000 * z ^ 7 := by
  have hcubic : 0 ≤ z ^ 3 * (268 / 1000 - 662 / 10000 * z + 2 / 100 * z ^ 2) :=
    mul_nonneg (by positivity) (by nlinarith [sq_nonneg (z - 331 / 200)])
  have hquintic : 0 ≤ z ^ 5 * (225 / 10000 - 46 / 10000 * z + 5 / 10000 * z ^ 2) :=
    mul_nonneg (by positivity) (by nlinarith [sq_nonneg (z - 46 / 10)])
  have hsquare : 4 / 9 ≤ z ^ 2 := by nlinarith
  have h4 : 0 ≤ z ^ 4 := by positivity
  have h5 : 0 ≤ z ^ 5 := by positivity
  have h3 : 0 ≤ z ^ 3 := by positivity
  have h6 : 0 ≤ z ^ 6 := by positivity
  have h7 : 0 ≤ z ^ 7 := by positivity
  unfold taylorExp
  linarith

theorem exactBeta_add_ge {e z : ℚ} (he : 0 ≤ e) (hz : 2 / 3 ≤ z) (htaylor : taylorExp z ≤ e + 1 + 1 / 100) :
    64 / 100 ≤ exactBeta e z + e := by
  obtain ⟨h1, h2, h3, h4, h5, h6, h7, h8⟩ := coefficients_ge
  have hpoly := correction_polynomial_ge hz
  have hz0 : 0 ≤ z := by linarith
  have m1 := mul_le_mul_of_nonneg_right h1 he
  have m2 := mul_le_mul_of_nonneg_right h2 hz0
  have m3 := mul_le_mul_of_nonneg_right h3 (pow_nonneg hz0 2)
  have m4 := mul_le_mul_of_nonneg_right h4 (pow_nonneg hz0 3)
  have m5 := mul_le_mul_of_nonneg_right h5 (pow_nonneg hz0 4)
  have m6 := mul_le_mul_of_nonneg_right h6 (pow_nonneg hz0 5)
  have m7 := mul_le_mul_of_nonneg_right h7 (pow_nonneg hz0 6)
  have m8 := mul_le_mul_of_nonneg_right h8 (pow_nonneg hz0 7)
  unfold exactBeta
  linarith

/-- The chain of products that forms the powers of the logarithm (R108). -/
def powerChain (zl : F64) : Nat → F64
  | 0 => zl
  | k + 1 => fmul (powerChain zl k) zl

theorem betaOf_eq (ezf zl : F64) : betaOf ezf zl =
    fadd (fadd (fadd (fadd (fadd (fadd (fadd (fmul C1 ezf) (fmul C2 (powerChain zl 0))) (fmul C3 (powerChain zl 1)))
      (fmul C4 (powerChain zl 2))) (fmul C5 (powerChain zl 3))) (fmul C6 (powerChain zl 4)))
      (fmul C7 (powerChain zl 5))) (fmul C8 (powerChain zl 6)) := rfl

section
variable {zl : F64} (hfinite : isFinite zl = true) (hz : |toRat zl| ≤ 11)
include hfinite hz

theorem near_powerChain {k : Nat} (hk : k ≤ 6) :
    Near (12 ^ k / 2 ^ 28) (11 ^ (k + 1)) (powerChain zl k) (toRat zl ^ (k + 1)) := by
  have hself := near_self hfinite hz
  induction k with
  | zero =>
    rw [pow_one, pow_one]
    exact hself.mono (by positivity) (le_refl _)
  | succ k ih =>
    have h11 : (11 : ℚ) ^ (k + 1) ≤ 11 ^ 6 := pow_le_pow_right₀ (by norm_num) (by omega)
    have h12 : (12 : ℚ) ^ k ≤ 12 ^ 5 := pow_le_pow_right₀ (by norm_num) (by omega)
    have hone : (1 : ℚ) ≤ 12 ^ k := one_le_pow₀ (by norm_num)
    have hmul := (ih (by omega)).fmul hself (by linarith)
    rw [← pow_succ, ← pow_succ] at hmul
    refine hmul.mono ?_ (le_refl _)
    rw [pow_succ (12 : ℚ) k]
    linarith

theorem near_term {c : F64} (hc : Near 0 1 c (toRat c)) {k : Nat} (hk : k ≤ 6) :
    Near (1 / 64) (11 ^ (k + 1)) (fmul c (powerChain zl k)) (toRat c * toRat zl ^ (k + 1)) := by
  have h11 : (11 : ℚ) ^ (k + 1) ≤ 11 ^ 7 := pow_le_pow_right₀ (by norm_num) (by omega)
  have h12 : (12 : ℚ) ^ k ≤ 12 ^ 6 := pow_le_pow_right₀ (by norm_num) hk
  exact (hc.fmul (near_powerChain hfinite hz hk) (by linarith)).mono (by linarith) (one_mul _).le

/-- The fifteen roundings after the powers leave `beta` within `1/8` of its polynomial. -/
theorem near_betaOf {e : Nat} (he : e ≤ 16384) :
    Near (1 / 8) (2 ^ 25) (betaOf (u2f e) zl) (exactBeta e (toRat zl)) := by
  obtain ⟨c1, c2, c3, c4, c5, c6, c7, c8⟩ := near_coefficients
  have hezf : toRat (u2f e) = e := toRat_u2f (by omega)
  have hsize : |toRat (u2f e)| ≤ 16384 := by
    rw [hezf, abs_of_nonneg (Nat.cast_nonneg e)]
    exact_mod_cast he
  have hfirst := c1.fmul (near_self (isFinite_u2f (by omega)) hsize) (by norm_num)
  have hterm {c : F64} (hc : Near 0 1 c (toRat c)) {k : Nat} (hk : k ≤ 6) := near_term hfinite hz hc hk
  have hsum := (((((((hfirst.fadd (hterm c2 (k := 0) (by decide)) (by norm_num)).fadd
    (hterm c3 (k := 1) (by decide)) (by norm_num)).fadd (hterm c4 (k := 2) (by decide)) (by norm_num)).fadd
    (hterm c5 (k := 3) (by decide)) (by norm_num)).fadd (hterm c6 (k := 4) (by decide)) (by norm_num)).fadd
    (hterm c7 (k := 5) (by decide)) (by norm_num)).fadd (hterm c8 (k := 6) (by decide)) (by norm_num))
  simp only [Nat.reduceAdd, pow_one] at hsum
  rw [hezf, ← betaOf_eq] at hsum
  exact hsum.mono (by norm_num) (by norm_num)

end

/-- `beta + ez` stays above a half for either neighbour of the logarithm (R110 b, R116). -/
theorem beta_add_ge {e : Nat} (h1 : 1 ≤ e) (h2 : e ≤ 16384) :
    isFinite (beta ln64 e) = true ∧ 1 / 2 ≤ toRat (beta ln64 e) + e ∧ toRat (beta ln64 e) ≤ 2 ^ 26 := by
  obtain ⟨hfinite, hnear⟩ := ln64_near_log (n := e + 1) (by omega) (by omega)
  obtain ⟨hlow, hhigh, htaylor⟩ := range_of_near_log (n := e + 1) (by omega) (by omega) hnear
  have habs : |toRat (ln64 (u2f (e + 1)))| ≤ 11 := abs_le.2 ⟨by linarith, hhigh⟩
  obtain ⟨hbeta, herr, hsize⟩ := near_betaOf hfinite habs h2
  have hexact := exactBeta_add_ge (Nat.cast_nonneg e) hlow (by rwa [Nat.cast_succ] at htaylor)
  rw [abs_le] at herr hsize
  rw [beta_eq ln64 h2]
  exact ⟨hbeta, by linarith, by linarith⟩

end Sys2Proof.Machine
end

section
/-! ## Family 41_estimator: when ESTIMATE is out of range

O59. Numerator and denominator are positive numbers, so the quotient is no NaN and not negative; and the denominator is at
least a half with a zero register, at least the term of any one register without (`41_estimator.md` rules R115, R116). -/

namespace Sys2Proof.Machine

open F64

/-! ### The numerator -/

theorem units_u2f {n : Nat} (h : n ≤ 2 ^ 53) : units (u2f n) = ((n * 2 ^ 1074 : Nat) : Int) := by
  rw [units, sign_u2f h, magnitude_u2f h, if_neg Bool.false_ne_true]

/-- The number of registers that are not zero, exact (R111). -/
theorem fsub_u2f {m n : Nat} (hm : m ≤ 2 ^ 53) (hn : n ≤ m) : fsub (u2f m) (u2f n) = u2f (m - n) := by
  have hn' : n ≤ 2 ^ 53 := hn.trans hm
  have hunits : units (u2f m) + units (neg (u2f n)) = (((m - n) * 2 ^ 1074 : Nat) : Int) := by
    rw [units_neg, units_u2f hm, units_u2f hn', Nat.sub_mul, Nat.cast_sub (Nat.mul_le_mul_right _ hn), sub_eq_add_neg]
  rw [fsub_finite (isFinite_u2f hm) (isFinite_u2f hn'),
    fadd_finite (isFinite_u2f hm) ((isFinite_neg _).trans (isFinite_u2f hn')), hunits, sign_u2f hm, Int.natAbs_natCast,
    Bool.false_and, decide_eq_false (Int.natCast_nonneg _).not_gt, ite_self, u2f]

theorem numerator_eq {ez : Nat} (h : ez ≤ Config.numRegs) :
    numerator ez = fmul 0x40C714801FBCCD72 (u2f (16384 - ez)) := by
  have hproduct : fmul ALPHA mFloat = 0x40C714801FBCCD72 := by decide +kernel
  have hregs : mFloat = u2f 16384 := by decide +kernel
  rw [numerator, hproduct, hregs, fsub_u2f (by decide) h]

/-- The numerator is a number of sign `+`, at most the one of no zero register. -/
theorem numerator_range {ez : Nat} (h : ez ≤ Config.numRegs) :
    isFinite (numerator ez) = true ∧ sign (numerator ez) = false ∧ 0 ≤ toRat (numerator ez) ∧
      toRat (numerator ez) ≤ toRat 0x41A714801FBCCD72 := by
  have hle : 16384 - ez ≤ 2 ^ 53 := by omega
  have hfactor : isFinite 0x40C714801FBCCD72 = true ∧ sign 0x40C714801FBCCD72 = false ∧
      0 ≤ toRat 0x40C714801FBCCD72 ∧ toRat 0x40C714801FBCCD72 * 16384 ≤ toRat 0x41A714801FBCCD72 := by decide +kernel
  obtain ⟨hfinite, hsign, hnonneg, htop⟩ := hfactor
  have hzero : toRat plusZero = 0 := toRat_eq_zero.2 magnitude_plusZero
  have hcount : ((16384 - ez : Nat) : ℚ) ≤ 16384 := by exact_mod_cast Nat.sub_le 16384 ez
  have hround := rounded_fmul hfinite (isFinite_u2f hle)
  rw [toRat_u2f hle] at hround
  have hlow : toRat plusZero ≤ toRat 0x40C714801FBCCD72 * ((16384 - ez : Nat) : ℚ) := by
    rw [hzero]
    exact mul_nonneg hnonneg (Nat.cast_nonneg _)
  obtain ⟨h1, h2, h3⟩ := hround.between isFinite_plusZero (show isFinite 0x41A714801FBCCD72 = true by decide) hlow
    ((mul_le_mul_of_nonneg_left hcount hnonneg).trans htop)
  rw [hzero] at h2
  rw [numerator_eq h]
  refine ⟨h1, ?_, h2, h3⟩
  rw [fmul_finite hfinite (isFinite_u2f hle), sign_roundRatio_any, hsign, sign_u2f hle]
  rfl

/-! ### The denominator -/

/-- The sum is at least each of its terms. -/
theorem magnitude_pow2neg_le_partialSum {f : Nat → RegValue} {k i : Nat} (hk : k ≤ Config.numRegs) (hi : i < k) :
    magnitude (pow2neg (f i)) ≤ magnitude (partialSum f k) := by
  induction k with
  | zero => exact absurd hi (Nat.not_lt_zero i)
  | succ k ih =>
    obtain ⟨hfinite, hsign, -, -⟩ := partialSum_bounds f (Nat.le_of_succ_le hk)
    obtain ⟨hnext, -, -, -⟩ := partialSum_bounds f hk
    rw [partialSum, fadd_nonneg hfinite (isFinite_pow2neg _) hsign (sign_pow2neg _)] at hnext ⊢
    refine le_magnitude_roundRatio Nat.one_pos (roundLow_lt_of_isFinite hnext) ?_
    rw [Nat.mul_one]
    obtain hlt | rfl := Nat.lt_succ_iff_lt_or_eq.1 hi
    · exact (ih (Nat.le_of_succ_le hk) hlt).trans (Nat.le_add_right _ _)
    · exact Nat.le_add_left _ _

theorem toRat_harmonicSum_range {f : Nat → RegValue} {i : Nat} (hi : i < Config.numRegs) :
    toRat (pow2neg (f i)) ≤ toRat (harmonicSum f) ∧ toRat (harmonicSum f) ≤ 16384 := by
  refine ⟨toRat_le_of_magnitude_le (sign_pow2neg _) (sign_harmonicSum f)
    (magnitude_pow2neg_le_partialSum (Nat.le_refl _) hi), ?_⟩
  have hz : ((zeroCount f : Nat) : ℚ) ≤ 16384 := by exact_mod_cast zeroCount_le f
  have h := toRat_harmonicSum_le f
  rw [Nat.cast_add, Nat.cast_ofNat] at h
  linarith

/-- The denominator is a number, and at least a half or at least the term of whichever register one takes. -/
theorem denominator_ge {f : Nat → RegValue} {i : Nat} (hi : i < Config.numRegs) :
    let den := denominator ln64 (zeroCount f) (harmonicSum f)
    isFinite den = true ∧ (1 / 2 ≤ toRat den ∨ toRat (pow2neg (f i)) ≤ toRat den) := by
  obtain ⟨hterm, htop⟩ := toRat_harmonicSum_range (f := f) hi
  have hhi : toRat (u2f (2 ^ 27)) = 2 ^ 27 := by rw [toRat_u2f (by decide)]; norm_num
  have hhiFinite : isFinite (u2f (2 ^ 27)) = true := isFinite_u2f (by decide)
  dsimp only
  rcases Nat.eq_zero_or_pos (zeroCount f) with hz | hz
  · have hround := rounded_fadd isFinite_plusZero (isFinite_harmonicSum f)
    rw [toRat_eq_zero.2 magnitude_plusZero, zero_add] at hround
    rw [hz, denominator, beta_zero]
    obtain ⟨h1, h2, -⟩ := hround.between (isFinite_pow2neg (f i)) hhiFinite hterm (by linarith)
    exact ⟨h1, .inr h2⟩
  · obtain ⟨hbeta, hlow, hhigh⟩ := beta_add_ge hz (zeroCount_le f)
    have hsum := zeroCount_le_toRat_harmonicSum f
    have hhalf : isFinite 0x3FE0000000000000 = true ∧ toRat 0x3FE0000000000000 = 1 / 2 := by decide +kernel
    obtain ⟨h1, h2, -⟩ := (rounded_fadd hbeta (isFinite_harmonicSum f)).between hhalf.1 hhiFinite
      (by rw [hhalf.2]; linarith) (by linarith)
    exact ⟨h1, .inl (hhalf.2 ▸ h2)⟩

theorem denominator_pos (f : Nat → RegValue) : 0 < toRat (denominator ln64 (zeroCount f) (harmonicSum f)) := by
  obtain ⟨-, h⟩ := denominator_ge (f := f) (i := 0) (by decide)
  have hpow : 0 < toRat (pow2neg (f 0)) := by
    rw [toRat_pow2neg]
    positivity
  rcases h with h | h <;> linarith

/-! ### The conversion -/

theorem F64.sign_of_toRat_pos {x : F64} (h : 0 < toRat x) : sign x = false := by
  rw [toRat_eq_signed] at h
  cases hs : sign x with
  | false => rfl
  | true =>
    rw [hs, signed_true] at h
    exact absurd h (neg_nonpos.2 (div_nonneg (Nat.cast_nonneg _) unit_pos.le)).not_gt

theorem isNaN_roundRatio (n : Bool) (num den : Nat) : isNaN (roundRatio n num den) = false := by
  by_cases h : roundLow num den < 2047 * 2 ^ 52
  · exact isNaN_of_isFinite (isFinite_roundRatio h)
  · rw [roundRatio, if_neg h, isNaN_infinity]

/-- A quotient of sign `+` that is not NaN is out of range upward only (R115). -/
theorem convert_of_pos {q : F64} (hn : isNaN q = false) (hs : sign q = false) :
    convert q = ⟨.estOor, 0xFFFFFFFFFFFFFFFF⟩ ∨ convert q = ⟨.ok, BitVec.ofNat 64 (truncate q)⟩ := by
  have hsmall : tooSmall q = false := by rw [tooSmall, hs, Bool.false_and]
  unfold convert
  rw [hn, hsmall]
  cases tooLarge q with
  | true => exact .inl rfl
  | false => exact .inr rfl

/-- Where some register is at most 36 the quotient is at most the largest numerator over `2^-36`, which is in range. -/
theorem quotient_in_range {f : Nat → RegValue} {i : Nat} (hi : i < Config.numRegs) (hsmall : (f i).toNat ≤ 36) :
    let q := quotient ln64 (zeroCount f) (harmonicSum f)
    isFinite q = true ∧ 0 ≤ toRat q ∧ toRat q < 2 ^ 64 := by
  obtain ⟨hnum, -, hnumLow, hnumHigh⟩ := numerator_range (zeroCount_le f)
  obtain ⟨hden, hdenLow⟩ := denominator_ge (f := f) hi
  have hden36 : 1 / 2 ^ 36 ≤ toRat (denominator ln64 (zeroCount f) (harmonicSum f)) := by
    have hterm : (1 / 2 ^ 36 : ℚ) ≤ toRat (pow2neg (f i)) := by
      rw [toRat_pow2neg]
      exact one_div_le_one_div_of_le (by positivity) (pow_le_pow_right₀ one_le_two hsmall)
    rcases hdenLow with h | h
    · exact le_trans (by norm_num) h
    · exact hterm.trans h
  have hhi : isFinite 0x43E714801FBCCD72 = true ∧ 0 ≤ toRat 0x43E714801FBCCD72 ∧
      toRat 0x41A714801FBCCD72 ≤ toRat 0x43E714801FBCCD72 * (1 / 2 ^ 36) ∧ toRat 0x43E714801FBCCD72 < 2 ^ 64 := by
    decide +kernel
  obtain ⟨hhiFinite, hhiNonneg, htop, hhiLt⟩ := hhi
  have hzero : toRat plusZero = 0 := toRat_eq_zero.2 magnitude_plusZero
  obtain ⟨h1, h2, h3⟩ := fdiv_between hnum hden (denominator_pos f) isFinite_plusZero hhiFinite
    (by rw [hzero, zero_mul]; exact hnumLow)
    ((hnumHigh.trans htop).trans (mul_le_mul_of_nonneg_left hden36 hhiNonneg))
  rw [hzero] at h2
  exact ⟨h1, h2, h3.trans_lt hhiLt⟩

/-- A register of at most 36 keeps the estimate in range (R116). -/
theorem status_estimateWith_of_small {f : Nat → RegValue} {i : Nat} (hi : i < Config.numRegs)
    (hsmall : (f i).toNat ≤ 36) : (estimateWith ln64 f).status = .ok := by
  obtain ⟨hfinite, hnonneg, hlt⟩ := quotient_in_range hi hsmall
  have hfloor : ⌊toRat (quotient ln64 (zeroCount f) (harmonicSum f))⌋₊ < 2 ^ 64 := by
    rw [Nat.floor_lt hnonneg]
    exact_mod_cast hlt
  rw [estimateWith, convert_of_floor hfinite (Nat.floor_le hnonneg) (Nat.lt_floor_add_one _) hfloor]

/-- The estimate is out of range upward only (R115, R116). -/
theorem data_estimateWith_of_estOor {f : Nat → RegValue} (h : (estimateWith ln64 f).status = .estOor) :
    (estimateWith ln64 f).data = 0xFFFFFFFFFFFFFFFF := by
  obtain ⟨hnum, hnumSign, -, -⟩ := numerator_range (zeroCount_le f)
  obtain ⟨hden, -⟩ := denominator_ge (f := f) (i := 0) (by decide)
  have hpos := denominator_pos f
  have hmag : magnitude (denominator ln64 (zeroCount f) (harmonicSum f)) ≠ 0 := fun h0 =>
    hpos.ne' (toRat_eq_zero.2 h0)
  have hdenSign := sign_of_toRat_pos hpos
  have hq := fdiv_finite hnum hden hmag
  rw [hnumSign, hdenSign, bne_self_eq_false] at hq
  rw [estimateWith, quotient, hq] at h ⊢
  obtain hc | hc := convert_of_pos (isNaN_roundRatio _ _ _) (sign_roundRatio_any false _ _)
  · rw [hc]
  · rw [hc] at h
    cases h

end Sys2Proof.Machine

open Sys2Proof Sys2Proof.Machine

/-- Settles O59: a register below 37 keeps the quotient in range, and the quotient is never negative or NaN. -/
theorem outOfRangeOnlyIfEveryRegisterIsLarge : Obligations.OutOfRangeOnlyIfEveryRegisterIsLarge := by
  intro s d h
  rw [exec_estimate] at h
  have hresponse : estimateWith ln64 s.regs.read = ⟨.estOor, d⟩ := by
    injection h with h
    injection h with _ _ hpending _
    exact List.singleton_injective (List.append_cancel_left hpending)
  constructor
  · intro i
    by_contra hsmall
    have hok := status_estimateWith_of_small (f := s.regs.read) i.isLt (by
      rw [← State.reg]
      omega)
    rw [hresponse] at hok
    cases hok
  · have hdata := data_estimateWith_of_estOor (f := s.regs.read) (by rw [hresponse])
    rwa [hresponse] at hdata

end

section
/-! ## Family 42_merge_access: merge on arrays

`merge` and ingestion as register-wise maxima, said by upper bounds so that the order of the updates drops out
(`42_merge_access.md` rules R134, R135). -/

namespace Sys2Proof.Machine.Memory

/-- `eq_of_read` on the register values as numbers. -/
theorem eq_of_toNat_read {m n : Memory} (hm : m.wf = true) (hn : n.wf = true)
    (h : ∀ i : Index, (m.read i.toNat).toNat = (n.read i.toNat).toNat) : m = n :=
  eq_of_read hm hn fun i => BitVec.eq_of_toNat_eq (h i)

theorem merge_comm {a b : Memory} (ha : a.wf = true) (hb : b.wf = true) : a.merge b = b.merge a :=
  eq_of_toNat_read (wf_merge ha) (wf_merge hb) fun i => by
    rw [toNat_read_merge a hb, toNat_read_merge b ha, Nat.max_comm]

theorem merge_self {a : Memory} (ha : a.wf = true) : a.merge a = a :=
  eq_of_toNat_read (wf_merge ha) ha fun i => by
    rw [toNat_read_merge a ha, Nat.max_self]

theorem merge_assoc {a b c : Memory} (ha : a.wf = true) (hb : b.wf = true) (hc : c.wf = true) :
    (a.merge b).merge c = a.merge (b.merge c) :=
  eq_of_toNat_read (wf_merge (wf_merge ha)) (wf_merge ha) fun i => by
    rw [toNat_read_merge _ hc, toNat_read_merge a hb, toNat_read_merge a (wf_merge hb), toNat_read_merge b hc,
      Nat.max_assoc]

theorem merge_empty (a : Memory) : a.merge Memory.empty = a := rfl

/-- An update by its upper bounds: a register stays at most `n` unless the value written to it is above `n` (R87). -/
theorem toNat_read_update_le_iff (m : Memory) (i j : Index) (v : RegValue) (n : Nat) :
    ((m.update i v).read j.toNat).toNat ≤ n ↔ (m.read j.toNat).toNat ≤ n ∧ (j = i → v.toNat ≤ n) := by
  rw [toNat_read_update]
  by_cases h : j = i
  · rw [if_pos h, Nat.max_le, forall_prop_of_true h]
  · rw [if_neg h, forall_prop_of_false h, and_iff_left trivial]

theorem wf_foldl_addHash {m : Memory} (hm : m.wf = true) (hs : List Word64) :
    (hs.foldl addHash m).wf = true := by
  induction hs generalizing m with
  | nil => exact hm
  | cons h hs ih => exact ih (wf_addHash h hm)

/-- The registers of an ingested stream by their upper bounds, in which only the stream's members occur. -/
theorem toNat_read_foldl_addHash_le_iff (m : Memory) (hs : List Word64) (j : Index) (n : Nat) :
    ((hs.foldl addHash m).read j.toNat).toNat ≤ n ↔
      (m.read j.toNat).toNat ≤ n ∧ ∀ h ∈ hs, j = hashedAddress h → (rankValue (rank h)).toNat ≤ n := by
  induction hs generalizing m with
  | nil => simp
  | cons h hs ih =>
    rw [List.foldl_cons, ih, addHash, toNat_read_update_le_iff, List.forall_mem_cons, and_assoc]

end Sys2Proof.Machine.Memory

open Sys2Proof Sys2Proof.Machine

/-- Settles O39: each law is the law of the maximum on every register. -/
theorem mergeLawsHold : Obligations.MergeLawsHold := fun a _ _ ha hb hc =>
  ⟨a.toNat_read_merge hb, Memory.merge_comm ha hb, Memory.merge_self ha, Memory.merge_assoc ha hb hc, a.merge_empty⟩

/-- Settles O40: both arrays have the same upper bounds on every register, those of the members of the two streams. -/
theorem mergeIsIngestingBothStreams : Obligations.MergeIsIngestingBothStreams := by
  intro hs ks both hperm
  have hwf := Memory.wf_foldl_addHash Memory.wf_empty
  refine Memory.eq_of_toNat_read (Memory.wf_merge (hwf hs)) (hwf both) fun i => eq_of_forall_ge_iff fun n => ?_
  rw [Memory.toNat_read_merge _ (hwf ks), Nat.max_le]
  simp only [Memory.toNat_read_foldl_addHash_le_iff, hperm.mem_iff, List.forall_mem_append]
  exact and_and_left.symm

end

section
/-! ## Family 42_merge_access: runs of the pseudo-commands

MERGE, LOAD and DUMP presented to a block with nothing else to come (`42_merge_access.md` rules R136 to R138): the run is
the fold over their words (`run_commands`), so each is settled on the register array. -/

namespace Sys2Proof.Machine

/-! ### The fold over the words of commands -/

theorem wordStep_encode (m : Memory) (i : Instr) : wordStep m (encode i) = commandStep m i :=
  wordStep_of_ok m (decode_encode i)

theorem streamRun_encode_cons (m : Memory) (i : Instr) (ws : List PortWord) :
    streamRun m (encode i :: ws) =
      ((streamRun (commandStep m i).1 ws).1, (commandStep m i).2 :: (streamRun (commandStep m i).1 ws).2) := by
  rw [streamRun, wordStep_encode]

theorem wf_streamRun {m : Memory} (hm : m.wf = true) (ws : List PortWord) : (streamRun m ws).1.wf = true := by
  induction ws generalizing m with
  | nil => exact hm
  | cons w ws ih => exact ih (wf_wordStep w hm)

/-- A run over presented commands is the fold over their words. -/
theorem run_present {s : State} (hs : s.inbox = []) {cmds : List Instr} {k : Nat} (hk : cmds.length = k) :
    Sys2Proof.core.run k (s.present cmds) = .next ⟨(streamRun s.regs (cmds.map encode)).1, [],
      s.pending ++ (streamRun s.regs (cmds.map encode)).2, s.delivered⟩ := by
  have hinbox : (s.present cmds).inbox = (cmds.map encode).map .command ++ [] := by
    rw [State.present_inbox, hs, List.map_map, List.append_nil, List.nil_append, Function.comp_def]
  have hrun := run_commands (cmds.map encode) [] (s.present cmds) hinbox
  rwa [List.length_map, hk] at hrun

/-! ### UPDATE commands, and MERGE -/

section
variable {cmds : List Instr} (hcmds : ∀ c ∈ cmds, ∃ i v, c = .update i v)
include hcmds

theorem streamRun_updates_responses (m : Memory) :
    (streamRun m (cmds.map encode)).2 = List.replicate cmds.length ⟨.ok, 0⟩ := by
  induction cmds generalizing m with
  | nil => rfl
  | cons c cmds ih =>
    obtain ⟨⟨i, v, rfl⟩, hrest⟩ := List.forall_mem_cons.1 hcmds
    rw [List.map_cons, streamRun_encode_cons, ih hrest, List.length_cons, List.replicate_succ, commandStep]

/-- The registers after UPDATE commands by their upper bounds, in which only the commands' members occur. -/
theorem toNat_read_streamRun_updates_le_iff (m : Memory) (j : Index) (n : Nat) :
    ((streamRun m (cmds.map encode)).1.read j.toNat).toNat ≤ n ↔
      (m.read j.toNat).toNat ≤ n ∧ ∀ v, .update j v ∈ cmds → v.toNat ≤ n := by
  induction cmds generalizing m with
  | nil => simp [streamRun]
  | cons c cmds ih =>
    obtain ⟨⟨i, v, rfl⟩, hrest⟩ := List.forall_mem_cons.1 hcmds
    rw [List.map_cons, streamRun_encode_cons, ih hrest, commandStep, Memory.toNat_read_update_le_iff, and_assoc]
    simp only [List.mem_cons, Instr.update.injEq, or_imp, forall_and, and_imp, forall_eq_apply_imp_iff]

end

theorem updatesFrom_eq_map_zipIdx (i : Nat) (src : List RegValue) :
    updatesFrom i src = (src.zipIdx i).map fun p => .update (BitVec.ofNat 14 p.2) p.1 := by
  induction src generalizing i with
  | nil => rfl
  | cons v src ih => rw [updatesFrom, ih, List.zipIdx_cons, List.map_cons]

theorem length_mergeCommands (src : List RegValue) : (mergeCommands src).length = src.length := by
  rw [mergeCommands, updatesFrom_eq_map_zipIdx, List.length_map, List.length_zipIdx]

theorem exists_update_of_perm_mergeCommands {src : List RegValue} {cmds : List Instr}
    (hperm : cmds.Perm (mergeCommands src)) : ∀ c ∈ cmds, ∃ i v, c = .update i v := by
  intro c hc
  rw [hperm.mem_iff, mergeCommands, updatesFrom_eq_map_zipIdx] at hc
  obtain ⟨p, -, rfl⟩ := List.mem_map.1 hc
  exact ⟨_, _, rfl⟩

/-- MERGE of a whole sketch holds one UPDATE for each index, with the source's value (R136). -/
theorem update_mem_mergeCommands_iff {src : List RegValue} (hlen : src.length = 16384) (j : Index) (v : RegValue) :
    .update j v ∈ mergeCommands src ↔ v = src.getD j.toNat 0 := by
  have hj : j.toNat < src.length := hlen ▸ j.isLt
  rw [mergeCommands, updatesFrom_eq_map_zipIdx, List.mem_map, List.getD_eq_getElem _ _ hj]
  constructor
  · rintro ⟨⟨u, k⟩, hmem, heq⟩
    obtain ⟨rfl, rfl⟩ := Instr.update.inj heq
    obtain ⟨hk, hget⟩ := List.getElem?_eq_some_iff.1 (List.mem_zipIdx_iff_getElem?.1 hmem)
    have hindex : (BitVec.ofNat 14 k).toNat = k := toNat_ofNat_of_lt (hk.trans_eq hlen)
    simp only [hindex]
    exact hget.symm
  · rintro rfl
    refine ⟨(src[j.toNat], j.toNat), List.mem_zipIdx_iff_getElem?.2 (List.getElem?_eq_getElem hj), ?_⟩
    simp

/-- MERGE's commands in any order raise every register to the source's (R136). -/
theorem toNat_read_streamRun_merge {src : List RegValue} (hlen : src.length = 16384) {cmds : List Instr}
    (hperm : cmds.Perm (mergeCommands src)) (m : Memory) (j : Index) :
    ((streamRun m (cmds.map encode)).1.read j.toNat).toNat =
      max (m.read j.toNat).toNat (src.getD j.toNat 0).toNat := by
  refine eq_of_forall_ge_iff fun n => ?_
  rw [toNat_read_streamRun_updates_le_iff (exists_update_of_perm_mergeCommands hperm), Nat.max_le]
  simp only [hperm.mem_iff, update_mem_mergeCommands_iff hlen, forall_eq]

/-! ### LOAD -/

theorem length_loadCommands {src : List RegValue} (hlen : src.length = 16384) : (loadCommands src).length = 16385 := by
  rw [loadCommands, List.length_cons, length_mergeCommands, hlen]

/-- LOAD of a whole sketch leaves the source's registers (R138). -/
theorem read_streamRun_load {src : List RegValue} (hlen : src.length = 16384) (m : Memory) (j : Index) :
    (streamRun m ((loadCommands src).map encode)).1.read j.toNat = src.getD j.toNat 0 := by
  apply BitVec.eq_of_toNat_eq
  rw [loadCommands, List.map_cons, streamRun_encode_cons, commandStep, toNat_read_streamRun_merge hlen (.refl _),
    Memory.read_empty]
  exact Nat.zero_max _

/-- LOAD of an array's registers leaves that array: CLEAR makes the form canonical whatever was held (R138). -/
theorem run_load_of_read {s : State} (hs : s.inbox = []) {src : List RegValue} (hlen : src.length = 16384) {m : Memory}
    (hm : m.wf = true) (hsrc : ∀ i : Index, src.getD i.toNat 0 = m.read i.toNat) :
    ∃ t, Sys2Proof.core.run 16385 (s.present (loadCommands src)) = .next t ∧ t.regs = m := by
  have hwf : (streamRun s.regs ((loadCommands src).map encode)).1.wf = true := by
    rw [loadCommands, List.map_cons, streamRun_encode_cons]
    exact wf_streamRun Memory.wf_empty _
  exact ⟨_, run_present hs (length_loadCommands hlen),
    Memory.eq_of_read hwf hm fun i => (read_streamRun_load hlen s.regs i).trans (hsrc i)⟩

/-! ### DUMP -/

/-- Commands that leave the array are answered one by one from the array they start with. -/
theorem streamRun_of_unchanged {α : Type} {m : Memory} {f : α → Instr} {g : α → Response}
    (h : ∀ x, commandStep m (f x) = (m, g x)) (xs : List α) :
    streamRun m ((xs.map f).map encode) = (m, xs.map g) := by
  induction xs with
  | nil => rfl
  | cons x xs ih => rw [List.map_cons, List.map_cons, streamRun_encode_cons, h, ih, List.map_cons]

theorem regData_toNat (v : RegValue) : (regData v).toNat = v.toNat := BitVec.toNat_setWidth_of_le (by decide)

theorem getD_map_range (f : Nat → RegValue) {k n : Nat} (hk : k < n) : ((List.range n).map f).getD k 0 = f k := by
  rw [List.getD_eq_getElem _ _ (by simpa using hk), List.getElem_map, List.getElem_range]

theorem setWidth_regData (v : RegValue) : (regData v).setWidth 8 = v := BitVec.setWidth_setWidth_of_le _ (by decide)

theorem length_dumpCommands : dumpCommands.length = 16385 := by
  rw [dumpCommands, List.length_cons, List.length_map, List.length_range]

/-- DUMP answers ALPHA and the registers in index order, and leaves the array (R137). -/
theorem streamRun_dump (m : Memory) : streamRun m (dumpCommands.map encode) =
    (m, ⟨.ok, ALPHA⟩ :: (List.range 16384).map fun i => ⟨.ok, regData (m.read i)⟩) := by
  have hread : (List.range 16384).map (fun i => (⟨.ok, regData (m.read (BitVec.ofNat 14 i).toNat)⟩ : Response)) =
      (List.range 16384).map fun i => ⟨.ok, regData (m.read i)⟩ :=
    List.map_congr_left fun i hi => by
      have hindex : (BitVec.ofNat 14 i).toNat = i := toNat_ofNat_of_lt (List.mem_range.1 hi)
      rw [hindex]
  rw [dumpCommands, List.map_cons, streamRun_encode_cons, commandStep, streamRun_of_unchanged fun _ => rfl, hread]

/-- The run of DUMP (R137). -/
theorem run_dump {s : State} (hs : s.inbox = []) : Sys2Proof.core.run 16385 (s.present dumpCommands) = .next { s with
    pending := s.pending ++ ⟨.ok, ALPHA⟩ :: (List.range 16384).map fun i => ⟨.ok, regData (s.regs.read i)⟩ } := by
  rw [run_present hs length_dumpCommands, streamRun_dump, ← hs]

end Sys2Proof.Machine

open Sys2Proof Sys2Proof.Machine

/-- Settles O41: the array depends on the members of the commands alone, one UPDATE for each index. -/
theorem mergeCommandsLeaveTheMaximum : Obligations.MergeCommandsLeaveTheMaximum := by
  intro s src cmds hlen hs hperm
  have hcount : cmds.length = 16384 := hperm.length_eq.trans ((length_mergeCommands src).trans hlen)
  refine ⟨_, run_present hs hcount, toNat_read_streamRun_merge hlen hperm s.regs, rfl, ?responses, rfl⟩
  case responses =>
    rw [streamRun_updates_responses (exists_update_of_perm_mergeCommands hperm), hcount]

/-- Settles O42: after CLEAR the maximum with the source is the source. -/
theorem loadLeavesTheSource : Obligations.LoadLeavesTheSource := fun s _ hlen hs =>
  ⟨_, run_present hs (length_loadCommands hlen), read_streamRun_load hlen s.regs, rfl⟩

/-- Settles O43: no command of DUMP changes the array, and each is answered from it. -/
theorem dumpAnswersAlphaAndEveryRegister : Obligations.DumpAnswersAlphaAndEveryRegister := by
  intro s hs
  simp only [BitVec.ofNat_toNat]
  exact run_dump hs

/-- Settles O44: the low 8 bits of DUMP's data are the registers, which LOAD leaves in an array of canonical form. -/
theorem loadOfDumpReproducesTheArray : Obligations.LoadOfDumpReproducesTheArray := by
  intro s s' hinv hs hs'
  have hlen : ((List.range 16384).map s.regs.read).length = 16384 := by rw [List.length_map, List.length_range]
  obtain ⟨u, hload, hregs⟩ := run_load_of_read hs' hlen hinv fun i => getD_map_range s.regs.read i.isLt
  refine ⟨_, u, run_dump hs, rfl, ?_⟩
  simp only [List.drop_left, List.tail_cons, List.map_map, Function.comp_def, setWidth_regData]
  exact ⟨hlen, hload, hregs⟩

end

section
/-! ## Family 42_merge_access: the commands NOP, CLEAR, RDREG and RDALPHA

Their words and their whole effect (`42_merge_access.md` rules R130 to R133). -/

namespace Sys2Proof

theorem formatZ_of_ne_zero {x : Word64} (h : x ≠ 0) (c : Instr) : formatZ x c = .error .mustBeZero := if_neg h

theorem formatI_of_le {x : Word64} (h : 16384 ≤ x.toNat) (f : Index → Instr) : formatI x f = .error .mustBeZero := by
  have hformat := formatI_ofNat x.isLt f
  rwa [BitVec.ofNat_toNat, BitVec.setWidth_eq, if_neg (by omega)] at hformat

end Sys2Proof

open Sys2Proof Sys2Proof.Machine

/-- Settles O22: NOP's word is zero, its format admits no other operand, and it answers without a change. -/
theorem nopDoesNothing : Obligations.NopDoesNothing :=
  ⟨rfl, fun x hx => (decode_nop x).trans (formatZ_of_ne_zero hx _), exec_eq .nop⟩

/-- Settles O23: CLEAR leaves the empty array, in which every register reads 0. -/
theorem clearEmptiesTheSketch : Obligations.ClearEmptiesTheSketch := fun s =>
  ⟨_, exec_eq .clear s, fun _ => rfl, rfl, rfl, rfl, rfl⟩

/-- Settles O28: the data is the register zero-extended, and format I admits the operands below 16384. -/
theorem rdregAnswersTheRegister : Obligations.RdregAnswersTheRegister := by
  refine ⟨fun x hx => (decode_rdreg x).trans (formatI_of_le hx _), fun index s => ?_⟩
  refine ⟨regData (s.reg index), exec_eq (.rdreg index) s, regData_toNat _, ?word⟩
  case word => rw [encode_toNat, operand_rdreg_toNat]; rfl

/-- Settles O29: RDALPHA's word, its format, and the answer ALPHA without a change. -/
theorem rdalphaAnswersAlpha : Obligations.RdalphaAnswersAlpha :=
  ⟨rfl, fun x hx => (decode_rdalpha x).trans (formatZ_of_ne_zero hx _), exec_eq .rdalpha⟩

end

section
/-! ## Family 60_exceptions: illegal words and the idle block

O9: the one error outcome and its whole effect. O20: over a stream, illegal words only add their own responses.
O10: the idle block (`60_exceptions.md` rules R150, R162). -/

namespace Sys2Proof.Machine

theorem streamRun_cons (m : Memory) (w : PortWord) (ws : List PortWord) :
    streamRun m (w :: ws) =
      ((streamRun (wordStep m w).1 ws).1, (wordStep m w).2 :: (streamRun (wordStep m w).1 ws).2) := rfl

/-- The responses other than ILLEGAL_CMD are those of the words the decoder accepts (R74, R150). -/
theorem status_wordStep_bne_illegalCmd (m : Memory) (w : PortWord) :
    ((wordStep m w).2.status != .illegalCmd) = (decode w).isOk := by
  cases hd : decode w with
  | ok i =>
    rw [wordStep_of_ok m hd]
    exact bne_iff_ne.mpr (status_commandStep_ne_illegalCmd m i)
  | error e =>
    rw [wordStep_of_error m hd]
    rfl

/-- Leaving out the illegal words leaves out their responses and nothing else: an illegal word hands the array on as it
found it (R150). -/
theorem streamRun_filter_isOk (m : Memory) (ws : List PortWord) :
    streamRun m (ws.filter fun w => (decode w).isOk) =
      ((streamRun m ws).1, (streamRun m ws).2.filter fun r => r.status != .illegalCmd) := by
  induction ws generalizing m with
  | nil => rfl
  | cons w ws ih =>
    rw [streamRun_cons m w ws, List.filter_cons, List.filter_cons, status_wordStep_bne_illegalCmd]
    cases hd : decode w with
    | ok i =>
      rw [Except.isOk, Except.toBool, if_pos rfl, if_pos rfl, streamRun_cons, ih]
    | error e =>
      have hsame : (wordStep m w).1 = m := congrArg Prod.fst (wordStep_of_error m hd)
      rw [hsame, Except.isOk, Except.toBool, if_neg Bool.false_ne_true, if_neg Bool.false_ne_true, ih]

end Sys2Proof.Machine

open Sys2Proof Sys2Proof.Machine

/-- Settles O20: the legal words are those with `(decode w).isOk`, and then `streamRun_filter_isOk`. -/
theorem illegalWordsLeaveNoTrace : Obligations.IllegalWordsLeaveNoTrace := by
  intro m ws legal
  have hlegal : legal = ws.filter fun w => (decode w).isOk :=
    List.filter_congr fun w _ => by cases decode w <;> rfl
  rw [hlegal, streamRun_filter_isOk]
  exact ⟨rfl, rfl⟩

/-- Settles O9: the step is `wordStep`'s, which answers an illegal word with ILLEGAL_CMD and the array it was given. -/
theorem illegalWordIsAnsweredAndChangesNoRegister : Obligations.IllegalWordIsAnsweredAndChangesNoRegister := by
  intro s w rest e hinbox hdecode
  rw [step_command_eq hinbox, wordStep_of_error s.regs hdecode]

/-- Settles O10: the idle arm of the step. -/
theorem idleBlockHoldsItsState : Obligations.IdleBlockHoldsItsState := fun _ h => step_idle h

end

section
/-! ## Family 70_reset_and_hazards: reset, and runs without end

O15, O11: reset leaves the empty sketch (`70_reset_and_hazards.md` rules R170 to R172). O14: no state, reachable or not,
lacks a next one (rule R177), so a run may be as long as one likes. -/

namespace Sys2Proof.Machine

theorem State.reg_of_regs_empty {s : State} (h : s.regs = Memory.empty) (i : Index) : s.reg i = 0 := by
  rw [State.reg, h, Memory.read_empty]

theorem safeFor (k : Nat) (s : State) : SafeFor k s := by
  induction k generalizing s with
  | zero => exact ⟨s, rfl⟩
  | succ k ih =>
    obtain ⟨s', hstep⟩ := step_answers s
    obtain ⟨t, hrun⟩ := ih s'
    exact ⟨t, (run_succ k hstep).trans hrun⟩

end Sys2Proof.Machine

open Sys2Proof Sys2Proof.Machine

/-- Settles O14: every step answers (`step_answers`), and so, by induction on their number, do any number of steps. -/
theorem everyRunAnswers : Obligations.EveryRunAnswers := safeFor

/-- Settles O15: the array of the reset state is the empty one. -/
theorem resetStateIsTheEmptySketch : Obligations.ResetStateIsTheEmptySketch :=
  ⟨State.reg_of_regs_empty State.reset_regs, Memory.wf_empty⟩

/-- Settles O11: the step takes reset, which leaves the empty array and drops what is pending. -/
theorem resetEmptiesTheSketchAndDropsResponses : Obligations.ResetEmptiesTheSketchAndDropsResponses := by
  intro s rest hinbox
  have hregs : (s.withInbox rest).takeReset.regs = Memory.empty := State.takeReset_regs _
  exact ⟨(s.withInbox rest).takeReset, step_reset hinbox, State.reg_of_regs_empty hregs,
    hregs.trans State.reset_regs.symm, State.takeReset_pending _, State.takeReset_inbox _, State.takeReset_delivered _⟩

end

section
/-! ## Family other: the canonical form

O16: of the four things a step can do, only a command word writes registers one by one, and `wf_wordStep` says that it
keeps the form (log entry 9). -/

open Sys2Proof Sys2Proof.Machine

/-- Settles O16: idling and taking a response leave the array, a word keeps its form, reset leaves the empty array. -/
theorem everyStepKeepsTheCanonicalForm : Obligations.EveryStepKeepsTheCanonicalForm := by
  intro s t hs hstep
  obtain ⟨-, rfl⟩ | ⟨w, rest, -, rfl⟩ | ⟨rest, -, rfl⟩ | ⟨rest, -, rfl⟩ := step_cases hstep
  · exact hs
  · exact wf_wordStep w hs
  · rwa [State.Inv, State.deliver_regs, State.withInbox_regs]
  · exact Memory.wf_empty

end

section
/-! ## Family other: NaN, infinities and signs of results

O46: what each operation gives on operands that are NaN, infinite or zero (`00_scope.md` section 5, log entry 8), one
equation per operation and class of operands. -/

namespace Sys2Proof.Machine.F64

/-! ### NaN operands -/

section
variable {a b : F64} (h : isNaN a = true ∨ isNaN b = true)
include h

theorem isNaN_fadd_of_isNaN : isNaN (fadd a b) = true := by
  rw [fadd, if_pos ((Bool.or_eq_true _ _).mpr h), isNaN_nan]

theorem isNaN_fsub_of_isNaN : isNaN (fsub a b) = true := by
  rw [fsub, if_pos ((Bool.or_eq_true _ _).mpr h), isNaN_nan]

theorem isNaN_fmul_of_isNaN : isNaN (fmul a b) = true := by
  rw [fmul, if_pos ((Bool.or_eq_true _ _).mpr h), isNaN_nan]

theorem isNaN_fdiv_of_isNaN : isNaN (fdiv a b) = true := by
  rw [fdiv, if_pos ((Bool.or_eq_true _ _).mpr h), isNaN_nan]

end

/-! ### An infinite operand beside one that is not NaN -/

section
variable (n : Bool) {x : F64} (hx : isNaN x = false)
include hx

theorem fadd_infinity_left : fadd (infinity n) x =
    if isInf x && n != sign x then nan .add (infinity n) x else infinity n := by
  simp only [fadd, isNaN_infinity, hx, isInf_infinity, sign_infinity, Bool.or_self, Bool.false_eq_true, if_false,
    if_true]

theorem fsub_infinity_left : fsub (infinity n) x =
    if isInf x && n == sign x then nan .sub (infinity n) x else fadd (infinity n) (neg x) := by
  simp only [fsub, isNaN_infinity, hx, isInf_infinity, sign_infinity, Bool.or_self, Bool.false_eq_true, if_false,
    Bool.true_and]

theorem fmul_infinity_left : fmul (infinity n) x =
    if isFinite x && magnitude x == 0 then nan .mul (infinity n) x else infinity (n != sign x) := by
  simp only [fmul, isNaN_infinity, hx, isInf_infinity, isFinite_infinity, sign_infinity, Bool.or_self,
    Bool.false_eq_true, if_false, Bool.true_or, if_true, Bool.false_and, Bool.false_or]

theorem fmul_infinity_right : fmul x (infinity n) =
    if isFinite x && magnitude x == 0 then nan .mul x (infinity n) else infinity (sign x != n) := by
  simp only [fmul, isNaN_infinity, hx, isInf_infinity, isFinite_infinity, sign_infinity, Bool.or_self,
    Bool.false_eq_true, if_false, Bool.or_true, if_true, Bool.false_and, Bool.or_false]

theorem fdiv_infinity_left : fdiv (infinity n) x =
    if isInf x then nan .div (infinity n) x else infinity (n != sign x) := by
  simp only [fdiv, isNaN_infinity, hx, isInf_infinity, sign_infinity, Bool.or_self, Bool.false_eq_true, if_false,
    if_true]

end

/-! ### Two infinite operands -/

theorem fadd_infinity_same (n : Bool) : fadd (infinity n) (infinity n) = infinity n := by
  simp [fadd_infinity_left]

theorem isNaN_fadd_infinity_opposite (n : Bool) : isNaN (fadd (infinity n) (infinity !n)) = true := by
  simp [fadd_infinity_left]

theorem isNaN_fsub_infinity_same (n : Bool) : isNaN (fsub (infinity n) (infinity n)) = true := by
  simp [fsub_infinity_left]

theorem fsub_infinity_opposite (n : Bool) : fsub (infinity n) (infinity !n) = infinity n := by
  simp [fsub_infinity_left, fadd_infinity_same]

theorem fmul_infinity_infinity (n n' : Bool) : fmul (infinity n) (infinity n') = infinity (n != n') := by
  simp [fmul_infinity_left]

theorem isNaN_fdiv_infinity_infinity (n n' : Bool) : isNaN (fdiv (infinity n) (infinity n')) = true := by
  simp [fdiv_infinity_left]

/-! ### An infinite and a finite operand -/

section
variable {x : F64} (n : Bool) (hx : isFinite x = true)
include hx

theorem fadd_infinity_finite : fadd (infinity n) x = infinity n := by
  simp [fadd_infinity_left, isNaN_of_isFinite hx, isInf_of_isFinite hx]

theorem fadd_finite_infinity : fadd x (infinity n) = infinity n := by
  simp [fadd, isNaN_of_isFinite hx, isInf_of_isFinite hx]

theorem fsub_infinity_finite : fsub (infinity n) x = infinity n := by
  have hneg : fadd (infinity n) (neg x) = infinity n := fadd_infinity_finite n ((isFinite_neg x).trans hx)
  simp [fsub_infinity_left, isNaN_of_isFinite hx, isInf_of_isFinite hx, hneg]

theorem fsub_finite_infinity : fsub x (infinity n) = infinity !n := by
  simp [fsub, isNaN_of_isFinite hx, isInf_of_isFinite hx, fadd_finite_infinity (!n) hx]

theorem isNaN_fmul_infinity_zero (h0 : toRat x = 0) : isNaN (fmul (infinity n) x) = true := by
  simp [fmul_infinity_left, hx, isNaN_of_isFinite hx, toRat_eq_zero.1 h0]

theorem isNaN_fmul_zero_infinity (h0 : toRat x = 0) : isNaN (fmul x (infinity n)) = true := by
  simp [fmul_infinity_right, hx, isNaN_of_isFinite hx, toRat_eq_zero.1 h0]

theorem fmul_infinity_nonzero (h0 : toRat x ≠ 0) : fmul (infinity n) x = infinity (n != sign x) := by
  simp [fmul_infinity_left, isNaN_of_isFinite hx, mt toRat_eq_zero.2 h0]

theorem fmul_nonzero_infinity (h0 : toRat x ≠ 0) : fmul x (infinity n) = infinity (sign x != n) := by
  simp [fmul_infinity_right, isNaN_of_isFinite hx, mt toRat_eq_zero.2 h0]

theorem fdiv_infinity_finite : fdiv (infinity n) x = infinity (n != sign x) := by
  simp [fdiv_infinity_left, isNaN_of_isFinite hx, isInf_of_isFinite hx]

theorem fdiv_finite_infinity : fdiv x (infinity n) = signedZero (sign x != n) := by
  simp [fdiv, isNaN_of_isFinite hx, isInf_of_isFinite hx]

end

/-! ### Finite operands: division by zero, and signs -/

section
variable {a b : F64} (ha : isFinite a = true) (hb : isFinite b = true)
include ha hb

theorem fdiv_by_zero (h : toRat b = 0) :
    fdiv a b = if magnitude a = 0 then nan .div a b else infinity (sign a != sign b) := by
  simp [fdiv, isNaN_of_isFinite ha, isNaN_of_isFinite hb, isInf_of_isFinite ha, isInf_of_isFinite hb,
    toRat_eq_zero.1 h]

theorem isNaN_fdiv_zero_zero (hb0 : toRat b = 0) (ha0 : toRat a = 0) : isNaN (fdiv a b) = true := by
  rw [fdiv_by_zero ha hb hb0, if_pos (toRat_eq_zero.1 ha0), isNaN_nan]

theorem fdiv_nonzero_zero (hb0 : toRat b = 0) (ha0 : toRat a ≠ 0) : fdiv a b = infinity (sign a != sign b) := by
  rw [fdiv_by_zero ha hb hb0, if_neg (mt toRat_eq_zero.2 ha0)]

/-- An exact zero sum is `-0.0` of two operands of sign `-` and `+0.0` otherwise. -/
theorem fadd_of_sum_zero (h : toRat a + toRat b = 0) : fadd a b = signedZero (sign a && sign b) := by
  have hunits : units a + units b = 0 := toRat_add_eq_zero.1 h
  rw [fadd_finite ha hb, hunits, if_pos rfl, Int.natAbs_zero, roundRatio_zero _ Nat.one_pos]

theorem fsub_of_difference_zero (h : toRat a - toRat b = 0) : fsub a b = signedZero (sign a && !sign b) := by
  have hsum : toRat a + toRat (neg b) = 0 := by rw [toRat_neg, ← sub_eq_add_neg, h]
  rw [fsub_finite ha hb, fadd_of_sum_zero ha ((isFinite_neg b).trans hb) hsum, sign_neg]

theorem sign_fmul : sign (fmul a b) = (sign a != sign b) := by
  rw [fmul_finite ha hb, sign_roundRatio_any]

theorem sign_fdiv (h : toRat b ≠ 0) : sign (fdiv a b) = (sign a != sign b) := by
  rw [fdiv_finite ha hb (mt toRat_eq_zero.2 h), sign_roundRatio_any]

end

end Sys2Proof.Machine.F64

open Sys2Proof Sys2Proof.Machine

/-- Settles O46: a case for each class of operands, in which every clause is the equation of one operation. -/
theorem naNAndInfinityFollowIeee : Obligations.NaNAndInfinityFollowIeee := by
  refine ⟨fun a b h => ?nan, fun n n' => ?twoInfinities, fun n x hx => ?oneInfinity, fun a b ha hb => ?finite⟩
  case nan =>
    exact ⟨F64.isNaN_fadd_of_isNaN h, F64.isNaN_fsub_of_isNaN h, F64.isNaN_fmul_of_isNaN h, F64.isNaN_fdiv_of_isNaN h⟩
  case twoInfinities =>
    exact ⟨F64.isNaN_fadd_infinity_opposite n, F64.isNaN_fsub_infinity_same n, F64.isNaN_fdiv_infinity_infinity n n',
      F64.fadd_infinity_same n, F64.fsub_infinity_opposite n, F64.fmul_infinity_infinity n n'⟩
  case oneInfinity =>
    exact ⟨F64.fadd_infinity_finite n hx, F64.fadd_finite_infinity n hx, F64.fsub_infinity_finite n hx,
      F64.fsub_finite_infinity n hx,
      fun h0 => ⟨F64.isNaN_fmul_infinity_zero n hx h0, F64.isNaN_fmul_zero_infinity n hx h0⟩,
      fun h0 => ⟨F64.fmul_infinity_nonzero n hx h0, F64.fmul_nonzero_infinity n hx h0⟩,
      F64.fdiv_infinity_finite n hx, F64.fdiv_finite_infinity n hx⟩
  case finite =>
    exact ⟨F64.isNaN_fdiv_zero_zero ha hb, F64.fdiv_nonzero_zero ha hb, F64.fadd_of_sum_zero ha hb,
      F64.fsub_of_difference_zero ha hb, F64.sign_fmul ha hb, F64.sign_fdiv ha hb⟩

end
